-- ==== Sys2Proof/Word.lean ====
section
/-! DEFINITION. The one word of the machine: an unsigned byte (spec 00_scope R4 XLEN, R5). -/

namespace Sys2Proof

/-- Every register, memory cell, operand byte and address is an unsigned value 0..255 (R5). -/
abbrev Byte := BitVec 8

/-- The 3-bit flags register's contents: bit 0 E, bit 1 G, bit 2 L (R26). -/
abbrev FlagBits := BitVec 3

end Sys2Proof
end

