-- ==== Sys2Proof/Config.lean ====
section
/-! DEFINITION. The implementation parameters of spec 00_scope R4. The machine draws no free value (40 R112), so no
constant here is opaque; the ones the spec marks OPEN take the spec's default (logs 6, 7 and 8). -/

namespace Sys2Proof.Config

/-- `SP_INIT`: the reset value of the stack pointer (R4, R23). -/
abbrev spInit : Byte := 0xF4#8

/-- `VEC_BASE`: the address of interrupt vector 0 (R4, R197). -/
abbrev vecBase : Byte := 0xF8#8

/-- `KBD_ADDR`: the key cell (R4, R202). -/
abbrev kbdAddr : Byte := 0xF4#8

/-- `IDX_IM`: register-file index of the interrupt-mask register (R4, R21, D4). PRESUMED by the spec from the LS-8
convention, log 7; unsafe. -/
abbrev idxIm : Fin 8 := 5

/-- `IDX_IS`: register-file index of the interrupt-pending register (R4, R21, D4). PRESUMED by the spec from the LS-8
convention, log 7; unsafe. -/
abbrev idxIs : Fin 8 := 6

/-- `IDX_SP`: register-file index of the stack pointer (R4, R21; derived by the spec from the saved set 0..6). -/
abbrev idxSp : Fin 8 := 7

/-- `PC_RESET` (R4, D5). -/
abbrev pcReset : Byte := 0x00#8

/-- `FL_RESET` (R4, D6). -/
abbrev flReset : FlagBits := 0b000#3

/-- `IE_RESET` (R4, D7): interrupts are active after reset. -/
abbrev ieReset : Bool := true

/-- `OPC_ADDI`, OPEN in the spec (R4, D2): the default is taken. DESIGN CHOICE, log 6; unsafe. -/
abbrev opcAddi : Byte := 0xAE#8

/-- `TIMER_IRQ_BIT`, OPEN in the spec (R4, D20): the default is taken. PRESUMED, log 8; unsafe. The core never uses it. -/
abbrev timerIrqBit : Nat := 0

/-- `KBD_IRQ_BIT`, OPEN in the spec (R4, D20): the default is taken. PRESUMED, log 8; unsafe. The core never uses it. -/
abbrev kbdIrqBit : Nat := 1

end Sys2Proof.Config
end

