-- ==== Sys2Proof/Syntax.lean ====
section
/-! DEFINITION. The instructions as syntax: the 23 rows of spec/opcode_table.json (30_encoding R70, R73), one
constructor each. An operand is the raw operand byte (R72): a register byte above 7 is an instruction too, one that
raises RegisterIndex (40 R108), and `WellFormed.lean` says which terms are free of it (log 5, DEDUCED, safe). -/

namespace Sys2Proof

/-- An instruction with its raw operand bytes; `a` is the byte at `pc + 1`, `b` the byte at `pc + 2` (R70). -/
inductive Instr where
  /-- halt, format Z (R110) -/
  | hlt
  /-- return, format Z (R153) -/
  | ret
  /-- return from interrupt, format Z (R170) -/
  | iret
  /-- push register `a`, format R (R150) -/
  | push (a : Byte)
  /-- pop into register `a`, format R (R151) -/
  | pop (a : Byte)
  /-- print register `a`, format R (R141) -/
  | prn (a : Byte)
  /-- call the subroutine at the address in register `a`, format R (R152) -/
  | call (a : Byte)
  /-- jump to the address in register `a`, format R (R160) -/
  | jmp (a : Byte)
  /-- jump if E is set, format R (R161) -/
  | jeq (a : Byte)
  /-- jump if E is clear, format R (R162) -/
  | jne (a : Byte)
  /-- bitwise complement of register `a`, format R (R128) -/
  | not (a : Byte)
  /-- load the literal `b` into register `a`, format RI (R140) -/
  | ldi (a b : Byte)
  /-- add, format RR (R121) -/
  | add (a b : Byte)
  /-- subtract, format RR (R123) -/
  | sub (a b : Byte)
  /-- multiply, format RR (R124) -/
  | mul (a b : Byte)
  /-- unsigned remainder, format RR (R131) -/
  | mod (a b : Byte)
  /-- compare, format RR (R132) -/
  | cmp (a b : Byte)
  /-- bitwise and, format RR (R125) -/
  | and (a b : Byte)
  /-- bitwise or, format RR (R126) -/
  | or (a b : Byte)
  /-- bitwise exclusive or, format RR (R127) -/
  | xor (a b : Byte)
  /-- shift left by the value of register `b`, format RR (R129) -/
  | shl (a b : Byte)
  /-- logical shift right by the value of register `b`, format RR (R130) -/
  | shr (a b : Byte)
  /-- add the literal `b` to register `a`, format RI (R122) -/
  | addi (a b : Byte)
  deriving DecidableEq, Repr

end Sys2Proof
end

