-- ==== Sys2Proof/WellFormed.lean ====
section
/-! DEFINITION. Which instruction terms name only registers that exist: the checks of spec 40 R108, one per format
(30_encoding R70, R72). A literal operand is never checked. -/

namespace Sys2Proof

/-- A register operand byte selects a register exactly when its whole value is at most 7 (R72 (a)). -/
def isRegisterByte (r : Byte) : Bool := r.toNat ≤ 7

/-- Format Z checks nothing, R and RI check `a`, RR checks `a` and `b` (R108). -/
def Instr.wellFormed : Instr → Bool
  | .hlt | .ret | .iret => true
  | .push a | .pop a | .prn a | .call a | .jmp a | .jeq a | .jne a | .not a => isRegisterByte a
  | .ldi a _ | .addi a _ => isRegisterByte a
  | .add a b | .sub a b | .mul a b | .mod a b | .cmp a b | .and a b | .or a b | .xor a b
  | .shl a b | .shr a b => isRegisterByte a && isRegisterByte b

end Sys2Proof
end

