-- ==== Sys2Proof/Decode.lean ====
section
/-! DEFINITION. The dispatch ROM, the decoder and, after them, the encoder (spec 30_encoding R70 to R75, R79). -/

namespace Sys2Proof

/-- The 23 handler identifiers of the dispatch ROM (R79). -/
inductive Opcode where
  | hlt | ret | iret
  | push | pop | prn | call | jmp | jeq | jne | not
  | ldi
  | add | sub | mul | mod | cmp | and | or | xor | shl | shr
  | addi
  deriving DecidableEq, Repr

/-- The opcode byte of each handler (R73). The bytes are PRESUMED by the spec from LS-8 (D1) and `OPC_ADDI` is the
spec's own choice (D2): log 6, unsafe for claims about a binary image. -/
def Opcode.byte : Opcode → Byte
  | .hlt => 0b00000001#8
  | .ret => 0b00010001#8
  | .iret => 0b00010011#8
  | .push => 0b01000101#8
  | .pop => 0b01000110#8
  | .prn => 0b01000111#8
  | .call => 0b01010000#8
  | .jmp => 0b01010100#8
  | .jeq => 0b01010101#8
  | .jne => 0b01010110#8
  | .not => 0b01101001#8
  | .ldi => 0b10000010#8
  | .add => 0b10100000#8
  | .sub => 0b10100001#8
  | .mul => 0b10100010#8
  | .mod => 0b10100100#8
  | .cmp => 0b10100111#8
  | .and => 0b10101000#8
  | .or => 0b10101010#8
  | .xor => 0b10101011#8
  | .shl => 0b10101100#8
  | .shr => 0b10101101#8
  | .addi => Config.opcAddi

/-- Every valid entry of the ROM, in the order of R73's table. -/
def Opcode.all : List Opcode :=
  [.hlt, .ret, .iret, .push, .pop, .prn, .call, .jmp, .jeq, .jne, .not, .ldi, .add, .sub, .mul, .mod, .cmp, .and,
    .or, .xor, .shl, .shr, .addi]

/-- The dispatch ROM: the full opcode byte indexes it; no entry means an unknown opcode (R74, R79). -/
def rom (op : Byte) : Option Opcode := Opcode.all.find? (fun o => o.byte == op)

/-- `NOPS`, opcode bits 7:6: how many operand bytes follow (R71, R106). -/
def nops (op : Byte) : Nat := (op.extractLsb' 6 2).toNat

/-- `SETPC`, opcode bit 4: the handler positions `pc` itself (R71, R106). -/
def setsPc (op : Byte) : Bool := op.getLsbD 4

/-- The length in bytes of an instruction with this opcode byte (R75). -/
def lengthOf (op : Byte) : Nat := nops op + 1

/-- The instruction a handler makes of its operand bytes; it takes only as many as its `NOPS` says (R70, R79). -/
def Opcode.instr (o : Opcode) (a b : Byte) : Instr :=
  match o with
  | .hlt => .hlt
  | .ret => .ret
  | .iret => .iret
  | .push => .push a
  | .pop => .pop a
  | .prn => .prn a
  | .call => .call a
  | .jmp => .jmp a
  | .jeq => .jeq a
  | .jne => .jne a
  | .not => .not a
  | .ldi => .ldi a b
  | .add => .add a b
  | .sub => .sub a b
  | .mul => .mul a b
  | .mod => .mod a b
  | .cmp => .cmp a b
  | .and => .and a b
  | .or => .or a b
  | .xor => .xor a b
  | .shl => .shl a b
  | .shr => .shr a b
  | .addi => .addi a b

/-- Why bytes are no instruction. -/
inductive DecodeError where
  /-- There is no opcode byte at all (only for a list of bytes; the machine always has one). -/
  | noBytes
  /-- The ROM has no entry for the opcode byte (R74, R107). -/
  | unknownOpcode (op : Byte)
  /-- Fewer than `nops` operand bytes follow the opcode byte (R105). -/
  | missingOperand (nops : Nat)
  deriving DecidableEq, Repr

/-- Decode an opcode byte and the bytes that follow it: dispatch first (R107), then take as many operand bytes as
`NOPS` says (R105, R106). The rest of the bytes is handed back. -/
def decodeOp (op : Byte) (rest : List Byte) : Except DecodeError (Instr × List Byte) :=
  match rom op with
  | none => .error (.unknownOpcode op)
  | some o =>
    match nops op, rest with
    | 0, rest => .ok (o.instr 0 0, rest)
    | 1, a :: rest => .ok (o.instr a 0, rest)
    | 2, a :: b :: rest => .ok (o.instr a b, rest)
    | n, _ => .error (.missingOperand n)

/-- The decoder, total on any bytes: the instruction at the front, with the bytes after it. -/
def decode : List Byte → Except DecodeError (Instr × List Byte)
  | [] => .error .noBytes
  | op :: rest => decodeOp op rest

/-- The handler of an instruction. -/
def Instr.opcode : Instr → Opcode
  | .hlt => .hlt
  | .ret => .ret
  | .iret => .iret
  | .push _ => .push
  | .pop _ => .pop
  | .prn _ => .prn
  | .call _ => .call
  | .jmp _ => .jmp
  | .jeq _ => .jeq
  | .jne _ => .jne
  | .not _ => .not
  | .ldi _ _ => .ldi
  | .add _ _ => .add
  | .sub _ _ => .sub
  | .mul _ _ => .mul
  | .mod _ _ => .mod
  | .cmp _ _ => .cmp
  | .and _ _ => .and
  | .or _ _ => .or
  | .xor _ _ => .xor
  | .shl _ _ => .shl
  | .shr _ _ => .shr
  | .addi _ _ => .addi

/-- The operand bytes of an instruction, in ascending address order (R70). -/
def Instr.operands : Instr → List Byte
  | .hlt | .ret | .iret => []
  | .push a | .pop a | .prn a | .call a | .jmp a | .jeq a | .jne a | .not a => [a]
  | .ldi a b | .add a b | .sub a b | .mul a b | .mod a b | .cmp a b | .and a b | .or a b | .xor a b
  | .shl a b | .shr a b | .addi a b => [a, b]

/-- The encoder: the opcode byte of R73, then the operand bytes of R70. -/
def encode (i : Instr) : List Byte := i.opcode.byte :: i.operands

/-- The instruction the decoder reads from the `nbits` low bits of `w`, the first byte in bits 7..0, the second in
bits 15..8, the third in bits 23..16, every bit above `nbits` zero. -/
def decodeTableWord (nbits w : Nat) : Option Instr :=
  let v := w % 2 ^ nbits
  match decode [BitVec.ofNat 8 v, BitVec.ofNat 8 (v / 256), BitVec.ofNat 8 (v / 65536)] with
  | .ok (i, _) => some i
  | .error _ => none

end Sys2Proof
end

