-- ==== Sys2Proof/Machine/State.lean ====
section
/-! DEFINITION. The machine's state as plain data (spec 10_state), the reasons a phase stops, and the state after
reset (10_state R38). -/

namespace Sys2Proof.Machine

/-- The run state `RUN` (R32). -/
inductive RunState where
  | running
  | halted
  | faulted
  deriving DecidableEq, Repr

/-- The contents of `CAUSE`, one name per code of R181. -/
inductive Cause where
  | none
  | haltInstruction
  | divideByZero
  | unknownOpcode
  | fetchBound
  | pcBound
  | registerIndex
  | stackBound
  deriving DecidableEq, Repr

/-- What the outside presents to one step (00_scope R9, 10_state R36; log 1, DESIGN CHOICE). -/
inductive StepInput where
  /-- A step's inputs: the eight interrupt lines and, when the input-ready source acts, a key code (R101, R102). -/
  | sample (irqIn : Byte) (kbdWrite : Option Byte)
  /-- The reset request (R221; a transaction of its own: log 2, DESIGN CHOICE). -/
  | rst
  deriving DecidableEq, Repr

/-- Why a step ends in Host's `fault`: never. Every fault and halt the spec describes is a state of the machine, with
`RUN`, `CAUSE`, `EPC` and `EINFO` written (R32, R188), and so a next state of the model (log 4, DEDUCED; safe: nothing
is left out). The type has no constructor, so a step cannot answer a fault. -/
inductive Fault where
  deriving DecidableEq, Repr

/-- Why a step has no meaning. -/
inductive Refusal where
  /-- Raised by an arm of `exec` whose instruction has no meaning yet; no arm of this model is one. Safe: a refused
  instruction proves nothing. -/
  | notModelled (mnemonic : String)
  deriving DecidableEq, Repr

/-- Memory: the cells that differ from what an unlisted address reads as, addresses strictly rising. -/
abbrev Memory := List Host.Cell

/-- Everything the spec gives the machine (10_state R20 to R35), and the inputs still to come. -/
structure State where
  /-- `x[0]`..`x[7]`; `x[5]` is `IM`, `x[6]` is `IS`, `x[7]` is `SP` (R20, R21). -/
  x : Vector Byte 8
  /-- The program counter (R24). -/
  pc : Byte
  /-- The flags register (R26). -/
  fl : FlagBits
  /-- The interrupt-enable flag (R28). -/
  ie : Bool
  /-- The run state (R32). -/
  run : RunState
  /-- Why the loop stopped (R33, R181). -/
  cause : Cause
  /-- The value of `pc` at the start of the phase that stopped the loop (R33). -/
  epc : Byte
  /-- The cause-specific byte (R33, R181). -/
  einfo : Byte
  /-- The output trace, oldest value first (R35). -/
  out : List Byte
  /-- The 256 memory cells (R34). -/
  mem : Memory
  /-- The model's own field: the inputs of the coming steps, oldest first; when it is empty a step sees no interrupt
  signal and no key (log 1, DESIGN CHOICE). -/
  inputs : List StepInput
  deriving DecidableEq, Repr

/-- The machine right after power-on reset (R38): memory zero, no program loaded, and no input to come (log 1). -/
def State.reset : State where
  x := #v[0x00#8, 0x00#8, 0x00#8, 0x00#8, 0x00#8, 0x00#8, 0x00#8, Config.spInit]
  pc := Config.pcReset
  fl := Config.flReset
  ie := Config.ieReset
  run := .running
  cause := .none
  epc := 0x00#8
  einfo := 0x00#8
  out := []
  mem := []
  inputs := []

end Sys2Proof.Machine
end

