-- ==== Sys2Proof/Machine/Memory.lean ====
section
/-! DEFINITION. The 256-byte memory (spec 20_memory R50 to R56) as a list of cells in one canonical form. -/

namespace Sys2Proof.Machine

/-- What an unlisted address reads as: the power-on contents, "zero-initialized" (R34). -/
def Memory.unlisted : Byte := 0x00#8

/-- `MemRead(addr, 1)` (R56). -/
def Memory.read (m : Memory) (a : Byte) : Byte :=
  match m with
  | [] => Memory.unlisted
  | c :: rest => if c.1 = a.toNat then c.2 else Memory.read rest a

/-- The memory without the cell at `a`. -/
def Memory.erase (m : Memory) (a : Byte) : Memory := m.filter (fun c => c.1 != a.toNat)

/-- Put a cell where its address belongs. -/
def Memory.insertCell (c : Host.Cell) : Memory → Memory
  | [] => [c]
  | d :: rest => if c.1 < d.1 then c :: d :: rest else d :: Memory.insertCell c rest

/-- `MemWrite(addr, 1, v)` (R56); writing what an unlisted address reads as unlists the cell. -/
def Memory.write (m : Memory) (a v : Byte) : Memory :=
  if v = Memory.unlisted then m.erase a else Memory.insertCell (a.toNat, v) (m.erase a)

/-- The cells from address `lo` on: addresses rising, all below 256, no cell holding what an unlisted one reads as. -/
def Memory.wfFrom (lo : Nat) : Memory → Bool
  | [] => true
  | c :: rest => lo ≤ c.1 && c.1 < 256 && c.2 != Memory.unlisted && Memory.wfFrom (c.1 + 1) rest

/-- The canonical form: equal memories are equal lists. -/
def Memory.wf (m : Memory) : Bool := Memory.wfFrom 0 m

end Sys2Proof.Machine
end

