-- ==== Sys2Proof/Machine/Ops.lean ====
section
/-! DEFINITION. The shared operations over registers, memory and the stack (spec 00_scope R6, 10_state, 20_memory R57),
stopping a phase (60_exceptions R188), interrupt entry (R196) and interrupt return (45 R170). -/

namespace Sys2Proof.Machine

/-- Read of `x[i]` (R6). -/
def State.reg (s : State) (r : Fin 8) : Byte := s.x[r]

/-- `x[i] <- v` (R6); no register is hardwired (R20). -/
def State.setReg (s : State) (r : Fin 8) (v : Byte) : State := { s with x := s.x.set r v }

/-- `pc <- t` (R6). -/
def State.setPc (s : State) (t : Byte) : State := { s with pc := t }

/-- `FL <- v` (R6). -/
def State.setFl (s : State) (v : FlagBits) : State := { s with fl := v }

/-- `IE <- b` (R6). -/
def State.setIe (s : State) (b : Bool) : State := { s with ie := b }

/-- `MemRead(addr, 1)` (R56). -/
def State.memRead (s : State) (a : Byte) : Byte := s.mem.read a

/-- `MemWrite(addr, 1, v)` (R56). -/
def State.memWrite (s : State) (a v : Byte) : State := { s with mem := s.mem.write a v }

/-- `Out(v)`: one pulse of the output port (R6, R35). -/
def State.emit (s : State) (v : Byte) : State := { s with out := s.out ++ [v] }

/-- The stack pointer, an alias of `x[7]` (R21, R31). -/
def State.sp (s : State) : Byte := s.reg Config.idxSp

/-- The interrupt-mask register, an alias of `x[5]` (R21, R29). -/
def State.im (s : State) : Byte := s.reg Config.idxIm

/-- The interrupt-pending register, an alias of `x[6]` (R21, R30). -/
def State.pending (s : State) : Byte := s.reg Config.idxIs

/-- The 3-bit code of a cause (R181). -/
def Cause.code : Cause → BitVec 3
  | .none => 0#3
  | .haltInstruction => 1#3
  | .divideByZero => 2#3
  | .unknownOpcode => 3#3
  | .fetchBound => 4#3
  | .pcBound => 5#3
  | .registerIndex => 6#3
  | .stackBound => 7#3

/-- What a phase that does not complete leaves in `RUN`, `CAUSE` and `EINFO` (R188). -/
structure Stop where
  run : RunState
  cause : Cause
  einfo : Byte
  deriving DecidableEq, Repr

/-- `raise F(info)` (R6, R188). -/
def raise (cause : Cause) (info : Byte) : Stop := ⟨.faulted, cause, info⟩

/-- `halt(cause)` (R6, R110, R188). -/
def halt (cause : Cause) : Stop := ⟨.halted, cause, 0x00#8⟩

/-- Stopping the loop, the one shared operation for every fault and halt (R188): `s` is the state at the start of the
phase, so nothing the phase wrote is kept; `RUN`, `CAUSE`, `EPC` and `EINFO` are set. -/
def State.stop (s : State) (e : Stop) : State :=
  { s with run := e.run, cause := e.cause, epc := s.pc, einfo := e.einfo }

/-- A phase is atomic: its result when it completes, else the stopped start state (R101, R188). -/
def State.commit (s : State) (r : Except Stop State) : State :=
  match r with
  | .ok t => t
  | .error e => s.stop e

/-- `SP <- SP - 1` of a push, with its bound (R57). -/
def predecrement (s : State) : Except Stop State :=
  if s.sp = 0x00#8 then .error (raise .stackBound 0x00#8) else .ok (s.setReg Config.idxSp (s.sp - 1#8))

/-- `SP <- SP + 1` of a pop, with its bound (R57). -/
def postincrement (s : State) : Except Stop State :=
  if s.sp = 0xFF#8 then .error (raise .stackBound 0xFF#8) else .ok (s.setReg Config.idxSp (s.sp + 1#8))

/-- `Push(v)` (R57). -/
def push (v : Byte) (s : State) : Except Stop State := do
  let s ← predecrement s
  .ok (s.memWrite s.sp v)

/-- `Pop()` (R57): the byte at the old pointer, and the state after the increment. -/
def pop (s : State) : Except Stop (Byte × State) := do
  let t ← postincrement s
  .ok (s.memRead s.sp, t)

/-- Push bytes one after another, the first at the highest address. -/
def pushAll : List Byte → State → Except Stop State
  | [], s => .ok s
  | v :: rest, s => do
    let s ← push v s
    pushAll rest s

/-- Pop into registers one after another. -/
def popRegs : List (Fin 8) → State → Except Stop State
  | [], s => .ok s
  | r :: rest, s => do
    let (v, t) ← pop s
    popRegs rest (t.setReg r v)

/-- The sequential advance past an instruction of `length` bytes, with its bound (40 R109). No handler that is followed
by it writes `pc`, so `pc` is still the address the instruction was fetched from. -/
def advance (length : Nat) (s : State) : Except Stop State :=
  if s.pc.toNat + length > 255 then .error (raise .pcBound (BitVec.ofNat 8 length))
  else .ok (s.setPc (s.pc + BitVec.ofNat 8 length))

/-- `lowest_set_bit(m)` for a non-zero `m` (R6): bits 0 to 7 examined in order, first match wins (R103, R194). -/
def lowestSetBit (m : Byte) : Fin 8 :=
  (([0, 1, 2, 3, 4, 5, 6, 7] : List (Fin 8)).find? (fun n => m.getLsbD n.val)).getD 0

/-- The address of interrupt vector `n` (R197). -/
def vectorAddress (n : Fin 8) : Byte := Config.vecBase + BitVec.ofNat 8 n.val

/-- The nine bytes interrupt entry pushes, in push order: `pc`, `FL` zero-extended, `x[0]`..`x[6]` (R196). -/
def State.frame (s : State) : List Byte :=
  [s.pc, s.fl.setWidth 8, s.reg 0, s.reg 1, s.reg 2, s.reg 3, s.reg 4, s.reg 5, s.reg 6]

/-- Taking interrupt `n` (R196): `IE` and the whole pending register are cleared, the frame is pushed (so the pushed
`x[6]` is zero), and `pc` comes from the vector cell, read after the pushes. -/
def interruptEntry (n : Fin 8) (s : State) : Except Stop State := do
  let s := (s.setIe false).setReg Config.idxIs 0x00#8
  let s ← pushAll s.frame s
  .ok (s.setPc (s.memRead (vectorAddress n)))

/-- Returning from an interrupt (45 R170): `x[6]` down to `x[0]`, then `FL` (bits 7..3 dropped), then `pc` are popped,
and `IE` is set. -/
def interruptReturn (s : State) : Except Stop State := do
  let s ← popRegs [6, 5, 4, 3, 2, 1, 0] s
  let (f, s) ← pop s
  let s := s.setFl (f.setWidth 3)
  let (t, s) ← pop s
  .ok ((s.setPc t).setIe true)

end Sys2Proof.Machine
end

