-- ==== Sys2Proof/Machine/Flags.lean ====
section
/-! DEFINITION. The only flag computation of the machine, that of CMP (spec 41 R132), and the flag a jump reads. -/

namespace Sys2Proof.Machine

/-- The flags of an unsigned comparison of `va` with `vb`: exactly one of E, G, L (R132). -/
def compareFlags (va vb : Byte) : FlagBits :=
  if va = vb then 0b001#3 else if vb.toNat < va.toNat then 0b010#3 else 0b100#3

/-- `FL.E`, bit 0 (R26), the only bit a conditional jump tests (R161, R162). -/
def State.flagE (s : State) : Bool := s.fl.getLsbD 0

/-- `FL.G`, bit 1 (R26); written by CMP, tested by no instruction (R27). -/
def State.flagG (s : State) : Bool := s.fl.getLsbD 1

/-- `FL.L`, bit 2 (R26); written by CMP, tested by no instruction (R27). -/
def State.flagL (s : State) : Bool := s.fl.getLsbD 2

end Sys2Proof.Machine
end

