-- ==== Sys2Proof/Machine/Operands.lean ====
section
/-! DEFINITION. The operand forms (spec 30_encoding R70, R72; 40 R108) and the two-operand frame of the ALU (41 R120). -/

namespace Sys2Proof.Machine

/-- The register a register operand byte selects; all eight bits are compared, and a byte above 7 raises RegisterIndex
with that byte (R72, R108). -/
def registerOperand (r : Byte) : Except Stop (Fin 8) :=
  if h : r.toNat < 8 then .ok ⟨r.toNat, h⟩ else .error (raise .registerIndex r)

/-- Phase X ends here: an instruction always has a next state, completed or stopped (R101, R188). -/
def runPhase (s : State) (r : Except Stop State) : Host.Outcome State Fault Refusal := .next (s.commit r)

/-- Format RR of the ALU: both registers are read before `x[a]` is overwritten with the result (R120). -/
def twoRegisters (f : Byte → Byte → Byte) (a b : Byte) (s : State) : Host.Outcome State Fault Refusal :=
  runPhase s do
    let ra ← registerOperand a
    let rb ← registerOperand b
    advance 3 (s.setReg ra (f (s.reg ra) (s.reg rb)))

/-- Format RI: `x[a]` is overwritten with a result of its old value and the literal, which is never checked (R72). -/
def registerLiteral (f : Byte → Byte → Byte) (a b : Byte) (s : State) : Host.Outcome State Fault Refusal :=
  runPhase s do
    let ra ← registerOperand a
    advance 3 (s.setReg ra (f (s.reg ra) b))

/-- Format R of a jump: the handler positions `pc` itself (R71); when the jump is not taken it steps over the
instruction, with the bound of R161 and R162. -/
def jumpIf (taken : Bool) (a : Byte) (s : State) : Host.Outcome State Fault Refusal :=
  runPhase s do
    let ra ← registerOperand a
    if taken then .ok (s.setPc (s.reg ra)) else advance 2 s

end Sys2Proof.Machine
end

