-- ==== Sys2Proof/Machine/Alu.lean ====
section
/-! DEFINITION. The ALU instructions (spec 41_alu): twelve operations on unsigned bytes, every result the exact result
modulo 256 (R133). -/

namespace Sys2Proof.Machine

/-- Wrapping addition, shared by ADD and ADDI (R121, R122, R133). -/
def wrapAdd (va vb : Byte) : Byte := va + vb

/-- Wrapping subtraction (R123, R133). -/
def wrapSub (va vb : Byte) : Byte := va - vb

/-- The low 8 bits of the unsigned product (R124). -/
def wrapMul (va vb : Byte) : Byte := va * vb

/-- `va * 2^vb mod 256`; the whole value of `vb` is the amount (R129). -/
def shiftLeft (va vb : Byte) : Byte := va <<< vb.toNat

/-- `floor(va / 2^vb)`, a logical shift (R130). -/
def shiftRight (va vb : Byte) : Byte := va >>> vb.toNat

/-- The unsigned remainder of a division by a non-zero `vb` (R131). -/
def remainder (va vb : Byte) : Byte := BitVec.ofNat 8 (va.toNat % vb.toNat)

/-- ADD (R121). -/
def execAdd (a b : Byte) (s : State) : Host.Outcome State Fault Refusal := twoRegisters wrapAdd a b s

/-- ADDI (R122). -/
def execAddi (a b : Byte) (s : State) : Host.Outcome State Fault Refusal := registerLiteral wrapAdd a b s

/-- SUB (R123). -/
def execSub (a b : Byte) (s : State) : Host.Outcome State Fault Refusal := twoRegisters wrapSub a b s

/-- MUL (R124). -/
def execMul (a b : Byte) (s : State) : Host.Outcome State Fault Refusal := twoRegisters wrapMul a b s

/-- AND (R125). -/
def execAnd (a b : Byte) (s : State) : Host.Outcome State Fault Refusal := twoRegisters (· &&& ·) a b s

/-- OR (R126). -/
def execOr (a b : Byte) (s : State) : Host.Outcome State Fault Refusal := twoRegisters (· ||| ·) a b s

/-- XOR (R127). -/
def execXor (a b : Byte) (s : State) : Host.Outcome State Fault Refusal := twoRegisters (· ^^^ ·) a b s

/-- NOT (R128), format R. -/
def execNot (a : Byte) (s : State) : Host.Outcome State Fault Refusal :=
  runPhase s do
    let ra ← registerOperand a
    advance 2 (s.setReg ra (~~~ s.reg ra))

/-- SHL (R129). -/
def execShl (a b : Byte) (s : State) : Host.Outcome State Fault Refusal := twoRegisters shiftLeft a b s

/-- SHR (R130). -/
def execShr (a b : Byte) (s : State) : Host.Outcome State Fault Refusal := twoRegisters shiftRight a b s

/-- MOD (R131): a zero divisor halts before anything is written and before the advance. -/
def execMod (a b : Byte) (s : State) : Host.Outcome State Fault Refusal :=
  runPhase s do
    let ra ← registerOperand a
    let rb ← registerOperand b
    if s.reg rb = 0x00#8 then .error (halt .divideByZero)
    else advance 3 (s.setReg ra (remainder (s.reg ra) (s.reg rb)))

/-- CMP (R132): writes all three flags and no register. -/
def execCmp (a b : Byte) (s : State) : Host.Outcome State Fault Refusal :=
  runPhase s do
    let ra ← registerOperand a
    let rb ← registerOperand b
    advance 3 (s.setFl (compareFlags (s.reg ra) (s.reg rb)))

end Sys2Proof.Machine
end

