-- ==== Sys2Proof/Machine/Control.lean ====
section
/-! DEFINITION. HLT (spec 40 R110) and IRET (spec 45 R170). -/

namespace Sys2Proof.Machine

/-- HLT (R110): the loop ends; `pc` stays at the instruction. -/
def execHlt (s : State) : Host.Outcome State Fault Refusal := runPhase s (.error (halt .haltInstruction))

/-- IRET (R170); it does not check that an interrupt is in progress. -/
def execIret (s : State) : Host.Outcome State Fault Refusal := runPhase s (interruptReturn s)

end Sys2Proof.Machine
end

