-- ==== Sys2Proof/Machine/DataMove.lean ====
section
/-! DEFINITION. Data move and output (spec 42_data_move_output): LDI and PRN. -/

namespace Sys2Proof.Machine

/-- LDI (R140): `x[a] <- b`. -/
def execLdi (a b : Byte) (s : State) : Host.Outcome State Fault Refusal := registerLiteral (fun _ v => v) a b s

/-- PRN (R141): `Out(x[a])`. -/
def execPrn (a : Byte) (s : State) : Host.Outcome State Fault Refusal :=
  runPhase s do
    let ra ← registerOperand a
    advance 2 (s.emit (s.reg ra))

end Sys2Proof.Machine
end

