-- ==== Sys2Proof/Machine/Jump.lean ====
section
/-! DEFINITION. Jumps (spec 44_jumps): JMP, JEQ, JNE. -/

namespace Sys2Proof.Machine

/-- JMP (R160). -/
def execJmp (a : Byte) (s : State) : Host.Outcome State Fault Refusal := jumpIf true a s

/-- JEQ (R161): taken when E is set. -/
def execJeq (a : Byte) (s : State) : Host.Outcome State Fault Refusal := jumpIf s.flagE a s

/-- JNE (R162): taken when E is clear. -/
def execJne (a : Byte) (s : State) : Host.Outcome State Fault Refusal := jumpIf (!s.flagE) a s

end Sys2Proof.Machine
end

