-- ==== Sys2Proof/Machine/Stack.lean ====
section
/-! DEFINITION. Stack and subroutine instructions (spec 43_stack_subroutine): PUSH, POP, CALL, RET. -/

namespace Sys2Proof.Machine

/-- PUSH (R150): the register is read after the decrement, so PUSH R7 stores the decremented pointer. -/
def execPush (a : Byte) (s : State) : Host.Outcome State Fault Refusal :=
  runPhase s do
    let ra ← registerOperand a
    let t ← predecrement s
    advance 2 (t.memWrite t.sp (t.reg ra))

/-- POP (R151): the register is written before the increment, and the increment's bound is tested on the pointer of
that moment, so POP R7 of 0xFF raises StackBound too. -/
def execPop (a : Byte) (s : State) : Host.Outcome State Fault Refusal :=
  runPhase s do
    let ra ← registerOperand a
    if s.sp = 0xFF#8 then .error (raise .stackBound 0xFF#8)
    else
      let t ← postincrement (s.setReg ra (s.memRead s.sp))
      advance 2 t

/-- CALL (R152): the return address must be a byte; the target is read after the push. -/
def execCall (a : Byte) (s : State) : Host.Outcome State Fault Refusal :=
  runPhase s do
    let ra ← registerOperand a
    if s.pc.toNat + 2 > 255 then .error (raise .pcBound 0x02#8)
    else
      let t ← push (s.pc + 2#8) s
      .ok (t.setPc (t.reg ra))

/-- RET (R153). -/
def execRet (s : State) : Host.Outcome State Fault Refusal :=
  runPhase s do
    let (v, t) ← pop s
    .ok (t.setPc v)

end Sys2Proof.Machine
end

