-- ==== Sys2Proof/Machine/Loop.lean ====
section
/-! DEFINITION. The execution loop (spec 40_fetch_decode_dispatch): phases P, I and X, reset, and what the host may do
between steps (70 R221, R236). `Step.lean` only calls this file. -/

namespace Sys2Proof.Machine

/-- Phase P (R101, R102): the key code goes to the key cell first (60 R202), then `irq_in` is ORed into `x[6]`. -/
def poll (irqIn : Byte) (kbdWrite : Option Byte) (s : State) : State :=
  let s := match kbdWrite with
    | some key => s.memWrite Config.kbdAddr key
    | none => s
  s.setReg Config.idxIs (s.pending ||| irqIn)

/-- The pending lines that the mask enables (R103, 60 R192). -/
def State.enabledLines (s : State) : Byte := s.im &&& s.pending

/-- Phase I (R103): with interrupts active and an enabled line pending, the lowest such line is taken. -/
def serviceInterrupts (s : State) : Except Stop State :=
  if s.ie = true ∧ s.enabledLines ≠ 0x00#8 then interruptEntry (lowestSetBit s.enabledLines) s else .ok s

/-- The bytes that follow the opcode byte at `pc`, as far as memory goes and at most two (R105). -/
def State.operandBytes (s : State) : List Byte :=
  ([1, 2] : List Nat).filterMap fun k =>
    if s.pc.toNat + k ≤ 255 then some (s.memRead (s.pc + BitVec.ofNat 8 k)) else none

/-- What a failed decoding raises: UnknownOpcode with the opcode byte (R107), FetchBound with `NOPS` (R105). The machine
always has an opcode byte (R104), so `noBytes`, which only an empty list of bytes gives, is the unknown opcode of an
unlisted cell here and is never reached. -/
def fetchStop : DecodeError → Stop
  | .noBytes => raise .unknownOpcode Memory.unlisted
  | .unknownOpcode op => raise .unknownOpcode op
  | .missingOperand n => raise .fetchBound (BitVec.ofNat 8 n)

/-- Fetch and decode at `pc` (R104 to R107). -/
def fetch (s : State) : Except Stop Instr :=
  match decodeOp (s.memRead s.pc) s.operandBytes with
  | .ok (i, _) => .ok i
  | .error e => .error (fetchStop e)

/-- Phase X (R101): fetch, then the instruction's meaning. -/
def executePhase (s : State) : Host.Outcome State Fault Refusal :=
  match fetch s with
  | .ok i => exec i s
  | .error e => .next (s.stop e)

/-- One step of the running machine (R101). Phase P always commits; if phase I stops the loop, phase X does not run. -/
def runningStep (irqIn : Byte) (kbdWrite : Option Byte) (s : State) : Host.Outcome State Fault Refusal :=
  match serviceInterrupts (poll irqIn kbdWrite s) with
  | .ok t => executePhase t
  | .error e => .next ((poll irqIn kbdWrite s).stop e)

/-- Asserting `rst` (70 R220, R221): every register at its reset value, memory untouched (D30). The inputs that are
still to come are not the machine's and stay. -/
def State.resetCore (s : State) : State := { State.reset with mem := s.mem, inputs := s.inputs }

/-- The input of this step: the oldest one to come, or no signal and no key when none is listed (log 1). -/
def State.nextInput (s : State) : StepInput := s.inputs.headD (.sample 0x00#8 none)

/-- The state with that input taken. -/
def State.takeInput (s : State) : State := { s with inputs := s.inputs.tail }

/-- One transaction (00 R9). A stopped machine has no step: nothing changes and its inputs are ignored (R100); the model
answers the same state (log 3, DESIGN CHOICE). Only `rst` leaves a stop (log 2, DESIGN CHOICE, for its form). -/
def transaction (input : StepInput) (s : State) : Host.Outcome State Fault Refusal :=
  match input with
  | .rst => .next s.resetCore
  | .sample irqIn kbdWrite =>
    match s.run with
    | .running => runningStep irqIn kbdWrite s
    | .halted => .next s
    | .faulted => .next s

/-- Write bytes at ascending addresses from `addr`; a byte past address 255 has no cell and is not written. -/
def storeBytes (addr : Nat) : List Byte → State → State
  | [], s => s
  | v :: rest, s =>
    storeBytes (addr + 1) rest (if addr ≤ 255 then s.memWrite (BitVec.ofNat 8 addr) v else s)

/-- A state whose very next step fetches at `pc`: the machine runs, no input is to come, and no interrupt is entered
first (`IE` is kept unless an enabled line is already pending). At reset this is the state itself. -/
def State.fetchesNext (s : State) : State :=
  { s with run := .running, inputs := [], ie := s.ie && s.enabledLines == 0x00#8 }

/-- The three bytes of an instruction word, the first byte in the low bits. -/
def wordBytes (nbits w : Nat) : List Byte :=
  let v := w % 2 ^ nbits
  [BitVec.ofNat 8 v, BitVec.ofNat 8 (v / 256), BitVec.ofNat 8 (v / 65536)]

end Sys2Proof.Machine
end

