-- ==== Sys2Proof/Machine/Step.lean ====
section
/-! DEFINITION. The step of the machine, as the host calls it. -/

namespace Sys2Proof.Machine

/-- One transaction with the oldest input to come (spec 40 R101, R100; 70 R221). -/
def step (s : State) : Host.Outcome State Fault Refusal := transaction s.nextInput s.takeInput

/-- `s` with an instruction word at `pc`, ready to be fetched by the very next step (log 9). -/
def State.withFetchWord (s : State) (nbits w : Nat) : State :=
  storeBytes s.pc.toNat (wordBytes nbits w) s.fetchesNext

end Sys2Proof.Machine
end

