-- ==== Sys2Proof/Machine/Image.lean ====
section
/-! DEFINITION. How a program comes to be in memory before the run (spec 70 R222), the image format (30 R77) and the
written form of instructions (30 R76). The loader and the assembler are not hardware; no step uses this file. -/

namespace Sys2Proof.Machine

/-- The loader's effect: the image at addresses 0, 1, … (R222). An image of more than 256 bytes has no defined meaning
(R77, U9) and gives none (log 10). -/
def loadImage (image : List Byte) (s : State) : Option State :=
  if image.length ≤ 256 then some (storeBytes 0 image s) else none

/-- The eight characters of a byte line, the most significant bit first (R77). -/
def byteOfDigits (digits : List Char) : Option Byte :=
  if digits.length = 8 ∧ digits.all (fun c => c == '0' || c == '1') then
    some (BitVec.ofNat 8 (digits.foldl (fun n c => 2 * n + (if c == '1' then 1 else 0)) 0))
  else none

/-- A line without its comment and without surrounding white space. The comment is R77's for an image line; dropping
white space, and dropping a comment of a written instruction (R76 has none), are DESIGN CHOICES (log 10). -/
def stripLine (line : List Char) : List Char :=
  (((line.takeWhile (· != '#')).dropWhile Char.isWhitespace).reverse.dropWhile Char.isWhitespace).reverse

/-- The image a text file's lines stand for (R77): blank and comment-only lines are skipped; any other line that is not
a byte line is a load error, and execution never starts. -/
def imageOfLines : List (List Char) → Option (List Byte)
  | [] => some []
  | line :: rest =>
    match stripLine line with
    | [] => imageOfLines rest
    | digits =>
      match byteOfDigits digits, imageOfLines rest with
      | some v, some image => some (v :: image)
      | _, _ => none

/-- A byte line: eight binary digits, the most significant bit first (R77). -/
def byteLine (v : Byte) : List Char :=
  ([7, 6, 5, 4, 3, 2, 1, 0] : List Nat).map fun k => if v.getLsbD k then '1' else '0'

/-- A line of an image file as R77 and its example write it: a byte line or an empty one, then perhaps a comment, with any
number of blanks before it (the example has one; any number is a DESIGN CHOICE, log 10). -/
def imageLine (byte : Option Byte) (comment : Option (Nat × List Char)) : List Char :=
  let digits := match byte with
    | some v => byteLine v
    | none => []
  match comment with
  | some (blanks, text) => digits ++ (List.replicate blanks ' ' ++ '#' :: text)
  | none => digits

/-- The mnemonic of a handler (R73). -/
def mnemonicOf : Opcode → String
  | .hlt => "HLT"
  | .ret => "RET"
  | .iret => "IRET"
  | .push => "PUSH"
  | .pop => "POP"
  | .prn => "PRN"
  | .call => "CALL"
  | .jmp => "JMP"
  | .jeq => "JEQ"
  | .jne => "JNE"
  | .not => "NOT"
  | .ldi => "LDI"
  | .add => "ADD"
  | .sub => "SUB"
  | .mul => "MUL"
  | .mod => "MOD"
  | .cmp => "CMP"
  | .and => "AND"
  | .or => "OR"
  | .xor => "XOR"
  | .shl => "SHL"
  | .shr => "SHR"
  | .addi => "ADDI"

/-- How a register operand and a literal (in decimal) are written (R76). -/
def registerName (r : Byte) : String := "R" ++ toString r.toNat

/-- The written form of an instruction (R76): the first written operand is byte `a`. A term that names a register that
does not exist has none. -/
def assemblyOf (i : Instr) : Option String :=
  if i.wellFormed then
    some <| match i with
      | .ldi a b | .addi a b => mnemonicOf i.opcode ++ " " ++ registerName a ++ "," ++ toString b.toNat
      | _ => match i.operands with
        | [] => mnemonicOf i.opcode
        | [a] => mnemonicOf i.opcode ++ " " ++ registerName a
        | a :: b :: _ => mnemonicOf i.opcode ++ " " ++ registerName a ++ "," ++ registerName b
  else none

/-- The value of a digit in a base up to 16. -/
def digitValue (base : Nat) (c : Char) : Option Nat :=
  let v :=
    if '0' ≤ c ∧ c ≤ '9' then c.toNat - 48
    else if 'A' ≤ c ∧ c ≤ 'F' then c.toNat - 55
    else if 'a' ≤ c ∧ c ≤ 'f' then c.toNat - 87
    else base
  if v < base then some v else none

/-- A non-empty string of digits. -/
def numberIn (base : Nat) (digits : List Char) : Option Nat :=
  if digits = [] then none
  else digits.foldl (fun n c => n.bind fun n => (digitValue base c).map (base * n + ·)) (some 0)

/-- A literal: decimal, `0x` hexadecimal or `0b` binary, in 0..255 (R76). Either case of a hexadecimal digit and leading
zeros are accepted, of which R76 does not speak: DESIGN CHOICE (log 10). -/
def literalOf (text : List Char) : Option Byte :=
  let value := match text with
    | '0' :: 'x' :: digits => numberIn 16 digits
    | '0' :: 'b' :: digits => numberIn 2 digits
    | digits => numberIn 10 digits
  value.bind fun n => if n ≤ 255 then some (BitVec.ofNat 8 n) else none

/-- A register: `R` followed by its index 0..7 (R76). -/
def registerOf : List Char → Option Byte
  | ['R', d] => (digitValue 8 d).map (BitVec.ofNat 8)
  | _ => none

/-- The operands of a written instruction: none, one, or two separated by a comma. -/
def operandTexts (text : List Char) : List (List Char) :=
  match stripLine text with
  | [] => []
  | text => (text.splitOn ',').map stripLine

/-- The instruction a written instruction stands for (R76): the first written operand is byte `a`, the second is byte
`b`; it must have exactly the operands of its format (R70). R76's forms carry no comment and say nothing of white space:
that a trailing `#` comment and white space around the mnemonic and the operands are dropped is this model's DESIGN CHOICE
(log 10). -/
def assemble (line : List Char) : Option Instr :=
  let text := stripLine line
  let mnemonic := text.takeWhile (· != ' ')
  match Opcode.all.find? (fun o => (mnemonicOf o).toList == mnemonic) with
  | none => none
  | some o =>
    match nops o.byte, operandTexts (text.drop mnemonic.length) with
    | 0, [] => some (o.instr 0 0)
    | 1, [a] => (registerOf a).map fun a => o.instr a 0
    | 2, [a, b] =>
      (registerOf a).bind fun a =>
        (if o = .ldi ∨ o = .addi then literalOf b else registerOf b).map fun b => o.instr a b
    | _, _ => none

end Sys2Proof.Machine
end

