-- ==== Sys2Proof/Safety.lean ====
section
/-! DEFINITION. What counts as a clean end and a safe run, and the invariant of the machine, in the terms claims use. -/

namespace Sys2Proof.Machine

/-- The operand byte that selects register `r` (spec 30_encoding R72). -/
def regByte (r : Fin 8) : Byte := BitVec.ofNat 8 r.val

/-- `s` after a fault or halt that keeps nothing of the phase that started at `s` (60 R188), written out in full. -/
def State.stoppedWith (s : State) (run : RunState) (cause : Cause) (einfo : Byte) : State :=
  { s with run := run, cause := cause, epc := s.pc, einfo := einfo }

/-- A clean end of a run (spec 40 R111): a halt by HLT. -/
def State.cleanEnd (s : State) : Prop := s.run = .halted ∧ s.cause = .haltInstruction

/-- The machine has not met a fatal condition (60 R181). -/
def State.noFault (s : State) : Prop := s.run ≠ .faulted

/-- The diagnostic registers of a stopped or running machine are one row of R181's table, and they tell the truth about
the state the machine stopped in: a stopping phase commits nothing (R188), so `pc` and memory are still there to see.
The bytes 0x01 of HLT and 0xA4 of MOD are the spec's presumption (D1, log 6). -/
def State.diagnosticsTrue (s : State) : Prop :=
  match s.run, s.cause with
  | .running, .none => s.epc = 0x00#8 ∧ s.einfo = 0x00#8
  | .halted, .haltInstruction => s.epc = s.pc ∧ s.einfo = 0x00#8 ∧ s.memRead s.pc = 0x01#8
  | .halted, .divideByZero => s.epc = s.pc ∧ s.einfo = 0x00#8 ∧ s.memRead s.pc = 0xA4#8
  | .faulted, .unknownOpcode => s.epc = s.pc ∧ s.memRead s.pc = s.einfo ∧ rom s.einfo = none
  | .faulted, .fetchBound => s.epc = s.pc ∧ s.einfo.toNat = nops (s.memRead s.pc) ∧ 255 < s.pc.toNat + s.einfo.toNat
  | .faulted, .pcBound => s.epc = s.pc ∧ 1 ≤ s.einfo.toNat ∧ s.einfo.toNat ≤ 3 ∧ 255 < s.pc.toNat + s.einfo.toNat
  | .faulted, .registerIndex => s.epc = s.pc ∧ 7 < s.einfo.toNat
  | .faulted, .stackBound => s.epc = s.pc ∧ (s.einfo = 0x00#8 ∨ s.einfo = 0xFF#8)
  | _, _ => False

/-- The invariant every step keeps: memory is in its canonical form and the diagnostic registers are true. -/
def State.Inv (s : State) : Prop := s.mem.wf = true ∧ s.diagnosticsTrue

/-- `t` is reached from `s` by steps of the machine. -/
inductive Reaches (s : State) : State → Prop where
  | refl : Reaches s s
  | step {t u : State} : Reaches s t → Sys2Proof.Machine.step t = .next u → Reaches s u

/-- A run from `s` that never meets a fatal condition, whatever inputs `s` lists. -/
def State.safeRun (s : State) : Prop := ∀ t, Reaches s t → t.noFault

end Sys2Proof.Machine
end

