-- ==== Sys2Proof/Certificates/Slice0/Obligations.lean ====
section
/-! DEFINITION. The statements for the provers. Each docstring names the rules of spec/ it rests on; where it rests on a
decision (D<n>) or an inference the spec marks as its own, or on a choice of this model, it says so. -/

open Sys2Proof Sys2Proof.Machine

/-! ## Encoding -/

/-- Words written out from R73's table and R70's layout decode to the instruction they stand for (the bytes are the
spec's decisions D1 and D2). -/
def Obligations.TableWordsDecode : Prop :=
  decode [0x01#8] = .ok (.hlt, []) ∧ decode [0x13#8] = .ok (.iret, []) ∧
  decode [0x45#8, 0x03#8] = .ok (.push 0x03#8, []) ∧ decode [0x56#8, 0x02#8] = .ok (.jne 0x02#8, []) ∧
  decode [0x82#8, 0x00#8, 0x05#8] = .ok (.ldi 0x00#8 0x05#8, []) ∧
  decode [0xA2#8, 0x00#8, 0x01#8] = .ok (.mul 0x00#8 0x01#8, []) ∧
  decode [0xAE#8, 0x00#8, 0xFF#8, 0x01#8] = .ok (.addi 0x00#8 0xFF#8, [0x01#8])

/-- Every instruction, with every operand byte (well-formed or not), is what its encoding decodes to, whatever bytes
follow (R70, R73, R79; bytes by D1, D2). -/
def Obligations.DecodeOfEncodeIsTheInstruction : Prop :=
  ∀ (i : Instr) (rest : List Byte), decode (encode i ++ rest) = .ok (i, rest)

/-- Bytes that decode to an instruction are its encoding and the rest: each word has one meaning (R70, R74). -/
def Obligations.EncodeOfDecodeIsTheBytes : Prop :=
  ∀ (bytes : List Byte) (i : Instr) (rest : List Byte), decode bytes = .ok (i, rest) → bytes = encode i ++ rest

/-- R74, the 233 other bytes: a byte outside R73's table is rejected as unknown, whatever follows, and the 23 bytes of
the table are not (the bytes and the set are the spec's decisions D1, D2, D3, D32). -/
def Obligations.ExactlyTheTableBytesAreOpcodes : Prop :=
  ∀ (op : Byte) (rest : List Byte),
    (decode (op :: rest) = .error (.unknownOpcode op) ↔
      op ∉ ([0x01#8, 0x11#8, 0x13#8, 0x45#8, 0x46#8, 0x47#8, 0x50#8, 0x54#8, 0x55#8, 0x56#8, 0x69#8, 0x82#8, 0xA0#8,
        0xA1#8, 0xA2#8, 0xA4#8, 0xA7#8, 0xA8#8, 0xAA#8, 0xAB#8, 0xAC#8, 0xAD#8, 0xAE#8] : List Byte))

/-- R106: the operand count is the number in opcode bits 7:6, the length one more, and nothing else of the byte says how
many bytes are read. -/
def Obligations.LengthIsInOpcodeBits : Prop :=
  ∀ (op : Byte) (rest rest' : List Byte) (i : Instr), decode (op :: rest) = .ok (i, rest') →
    nops op = op.toNat / 64 ∧ (setsPc op = true ↔ op.toNat / 16 % 2 = 1) ∧ lengthOf op = nops op + 1 ∧
    (encode i).length = lengthOf op ∧ rest.length = rest'.length + nops op

/-- R109 with R71: an instruction whose opcode bit 4 is clear and that does not stop the machine leaves `pc` past its
last byte (the bound is D8's). -/
def Obligations.ClearBitFourAdvancesByLength : Prop :=
  ∀ (i : Instr) (s t : State), s.run = .running → exec i s = .next t → t.run = .running →
    setsPc i.opcode.byte = false → t.pc.toNat = s.pc.toNat + (encode i).length

/-! ## Reset, registers and memory -/

/-- R23 with R21: `x[0]`..`x[6]` are 0x00 and `x[7]` is 0xF4 after reset; that so the mask is 0x00 and nothing is pending
is marked as derived by the spec and rests on the presumed indices 5 and 6 (D4, log 7). -/
def Obligations.ResetRegisters : Prop :=
  (∀ r : Fin 8, State.reset.x[r] = if r = 7 then 0xF4#8 else 0x00#8) ∧
  State.reset.im = 0x00#8 ∧ State.reset.pending = 0x00#8 ∧ State.reset.sp = 0xF4#8

/-- R38, the rest of the reset table: `pc`, `FL`, `IE`, `RUN`, `CAUSE`, `EPC`, `EINFO`, `OUT` (the spec's decisions D5, D6,
D7, D10, D24) and the zero memory of power-on. That no input is to come is this model's choice (log 1). -/
def Obligations.ResetOtherState : Prop :=
  State.reset.pc = 0x00#8 ∧ State.reset.fl = 0b000#3 ∧ State.reset.ie = true ∧ State.reset.run = .running ∧
  State.reset.cause.code = 0#3 ∧ State.reset.epc = 0x00#8 ∧ State.reset.einfo = 0x00#8 ∧ State.reset.out = [] ∧
  ∀ a : Byte, State.reset.memRead a = 0x00#8

/-- R20 and R21: writing a register changes that register alone, in every state, for each of the eight (none is
hardwired), and `IM`, `IS`, `SP` are `x[5]`, `x[6]`, `x[7]` themselves (indices 5 and 6 by D4, log 7). -/
def Obligations.RegisterWriteAndAliases : Prop :=
  ∀ (s : State) (r q : Fin 8) (v : Byte),
    (s.setReg r v).reg q = (if q = r then v else s.reg q) ∧
    s.setReg r v = { s with x := s.x.set r v } ∧
    ((s.setReg r v).im = if r = 5 then v else s.im) ∧ ((s.setReg r v).pending = if r = 6 then v else s.pending) ∧
    ((s.setReg r v).sp = if r = 7 then v else s.sp)

/-- R56: a read returns what was last written to the cell, a write changes that cell alone and nothing else. -/
def Obligations.MemoryReadAfterWrite : Prop :=
  ∀ (s : State) (a c v : Byte),
    (s.memWrite a v).memRead c = (if c = a then v else s.memRead c) ∧
    s.memWrite a v = { s with mem := (s.memWrite a v).mem }

/-- The model's canonical form (log 12, DESIGN CHOICE): two memories in it that read the same everywhere are equal. -/
def Obligations.EqualReadsAreEqualMemories : Prop :=
  ∀ m n : Memory, m.wf = true → n.wf = true → (∀ a : Byte, m.read a = n.read a) → m = n

/-! ## ALU: what each instruction leaves when its registers exist and the instruction fits (41, R120); the whole next
state is given, so all the rest is unchanged -/

/-- ADD (41 section 2). -/
def Obligations.AddResult : Prop :=
  ∀ (s : State) (a b : Fin 8), s.pc.toNat + 3 ≤ 255 →
    exec (.add (regByte a) (regByte b)) s =
      .next { s with x := s.x.set a (BitVec.ofNat 8 ((s.x[a].toNat + s.x[b].toNat) % 256)), pc := s.pc + 3#8 }

/-- ADDI (41 section 2), for every literal. -/
def Obligations.AddiResult : Prop :=
  ∀ (s : State) (a : Fin 8) (b : Byte), s.pc.toNat + 3 ≤ 255 →
    exec (.addi (regByte a) b) s =
      .next { s with x := s.x.set a (BitVec.ofNat 8 ((s.x[a].toNat + b.toNat) % 256)), pc := s.pc + 3#8 }

/-- SUB (41 section 2; that it is an instruction is D27). -/
def Obligations.SubResult : Prop :=
  ∀ (s : State) (a b : Fin 8), s.pc.toNat + 3 ≤ 255 →
    exec (.sub (regByte a) (regByte b)) s =
      .next { s with
        x := s.x.set a (BitVec.ofInt 8 (((s.x[a].toNat : Int) - (s.x[b].toNat : Int)) % 256)), pc := s.pc + 3#8 }

/-- MUL (41 section 2). -/
def Obligations.MulResult : Prop :=
  ∀ (s : State) (a b : Fin 8), s.pc.toNat + 3 ≤ 255 →
    exec (.mul (regByte a) (regByte b)) s =
      .next { s with x := s.x.set a (BitVec.ofNat 8 (s.x[a].toNat * s.x[b].toNat % 256)), pc := s.pc + 3#8 }

/-- AND (41 section 2). -/
def Obligations.AndResult : Prop :=
  ∀ (s : State) (a b : Fin 8), s.pc.toNat + 3 ≤ 255 →
    exec (.and (regByte a) (regByte b)) s = .next { s with x := s.x.set a (s.x[a] &&& s.x[b]), pc := s.pc + 3#8 }

/-- OR (41 section 2). -/
def Obligations.OrResult : Prop :=
  ∀ (s : State) (a b : Fin 8), s.pc.toNat + 3 ≤ 255 →
    exec (.or (regByte a) (regByte b)) s = .next { s with x := s.x.set a (s.x[a] ||| s.x[b]), pc := s.pc + 3#8 }

/-- XOR (41 section 2). -/
def Obligations.XorResult : Prop :=
  ∀ (s : State) (a b : Fin 8), s.pc.toNat + 3 ≤ 255 →
    exec (.xor (regByte a) (regByte b)) s = .next { s with x := s.x.set a (s.x[a] ^^^ s.x[b]), pc := s.pc + 3#8 }

/-- NOT (41 section 2): `255 - x[a]`. -/
def Obligations.NotResult : Prop :=
  ∀ (s : State) (a : Fin 8), s.pc.toNat + 2 ≤ 255 →
    exec (.not (regByte a)) s =
      .next { s with x := s.x.set a (BitVec.ofNat 8 (255 - s.x[a].toNat)), pc := s.pc + 2#8 }

/-- SHL (41 section 2; amounts of 8 and more are D15): the whole value of `x[b]` is the amount. -/
def Obligations.ShlResult : Prop :=
  ∀ (s : State) (a b : Fin 8), s.pc.toNat + 3 ≤ 255 →
    exec (.shl (regByte a) (regByte b)) s =
      .next { s with x := s.x.set a (BitVec.ofNat 8 (s.x[a].toNat * 2 ^ s.x[b].toNat % 256)), pc := s.pc + 3#8 }

/-- SHR (41 section 2; amounts of 8 and more are D15): logical, zeros enter at bit 7. -/
def Obligations.ShrResult : Prop :=
  ∀ (s : State) (a b : Fin 8), s.pc.toNat + 3 ≤ 255 →
    exec (.shr (regByte a) (regByte b)) s =
      .next { s with x := s.x.set a (BitVec.ofNat 8 (s.x[a].toNat / 2 ^ s.x[b].toNat)), pc := s.pc + 3#8 }

/-- MOD with a non-zero divisor (41 section 2; the unsigned remainder is D28). -/
def Obligations.ModResult : Prop :=
  ∀ (s : State) (a b : Fin 8), s.x[b] ≠ 0x00#8 → s.pc.toNat + 3 ≤ 255 →
    exec (.mod (regByte a) (regByte b)) s =
      .next { s with x := s.x.set a (BitVec.ofNat 8 (s.x[a].toNat % s.x[b].toNat)), pc := s.pc + 3#8 }

/-- CMP (41 section 2; unsigned by D29): all three flags are written, no register is. -/
def Obligations.CmpResult : Prop :=
  ∀ (s : State) (a b : Fin 8), s.pc.toNat + 3 ≤ 255 →
    exec (.cmp (regByte a) (regByte b)) s =
      .next { s with
        fl := if s.x[a].toNat = s.x[b].toNat then 0b001#3 else if s.x[a].toNat > s.x[b].toNat then 0b010#3 else 0b100#3,
        pc := s.pc + 3#8 }

/-- R183: MOD with a zero divisor halts with cause DivideByZero, `EPC` at the instruction, the destination unwritten and
`pc` not advanced (D11, D28), wherever the instruction stands (the order of R189, D22); no other instruction raises it.
`EINFO` 0x00, the code 2 and that nothing else changes are R181 and R188 (D10). -/
def Obligations.DivideByZeroHalts : Prop :=
  (∀ (s : State) (a b : Fin 8), s.x[b] = 0x00#8 →
    exec (.mod (regByte a) (regByte b)) s = .next (s.stoppedWith .halted .divideByZero 0x00#8)) ∧
  (∀ (i : Instr) (s t : State), s.cause ≠ .divideByZero → exec i s = .next t → t.cause = .divideByZero →
    t.cause.code = 2#3 ∧ ∃ a b : Fin 8, i = .mod (regByte a) (regByte b) ∧ s.x[b] = 0x00#8)

/-- R134, the source's two testable properties of the ALU: (a) results modulo 256, (b) a compare sets exactly one flag
bit, consistent with the ordering, and a conditional jump right after it goes by that bit. That SUB is an instruction is
D27 and that the ordering is unsigned is D29 (log 13); that the target is the value of `x[c]` and that a jump not taken goes
on at the next instruction is general knowledge (93_implementation_defined G4). -/
def Obligations.AluTestableProperties : Prop :=
  (∀ (s : State) (a b : Fin 8), s.pc.toNat + 3 ≤ 255 →
    (∃ t, exec (.add (regByte a) (regByte b)) s = .next t ∧ t.x[a].toNat = (s.x[a].toNat + s.x[b].toNat) % 256) ∧
    (∃ t, exec (.sub (regByte a) (regByte b)) s = .next t ∧
      (t.x[a].toNat : Int) = ((s.x[a].toNat : Int) - (s.x[b].toNat : Int)) % 256) ∧
    (∃ t, exec (.and (regByte a) (regByte b)) s = .next t ∧
      ∀ k : Fin 8, t.x[a].getLsbD k = (s.x[a].getLsbD k && s.x[b].getLsbD k)) ∧
    (∃ t, exec (.or (regByte a) (regByte b)) s = .next t ∧
      ∀ k : Fin 8, t.x[a].getLsbD k = (s.x[a].getLsbD k || s.x[b].getLsbD k)) ∧
    (∃ t, exec (.xor (regByte a) (regByte b)) s = .next t ∧
      ∀ k : Fin 8, t.x[a].getLsbD k = (s.x[a].getLsbD k ^^ s.x[b].getLsbD k)) ∧
    (∃ t, exec (.mul (regByte a) (regByte b)) s = .next t ∧ t.x[a].toNat = s.x[a].toNat * s.x[b].toNat % 256)) ∧
  (∀ (s : State) (a b c : Fin 8), s.pc.toNat + 5 ≤ 255 →
    ∃ t, exec (.cmp (regByte a) (regByte b)) s = .next t ∧
      t.flagE = decide (s.x[a].toNat = s.x[b].toNat) ∧ t.flagG = decide (s.x[a].toNat > s.x[b].toNat) ∧
      t.flagL = decide (s.x[a].toNat < s.x[b].toNat) ∧
      (∃ u, exec (.jeq (regByte c)) t = .next u ∧ u.pc = if t.flagE then s.x[c] else s.pc + 5#8) ∧
      (∃ u, exec (.jne (regByte c)) t = .next u ∧ u.pc = if t.flagE then s.pc + 5#8 else s.x[c]))

/-! ## Data move, output, stack, jumps, halt, interrupt return -/

/-- LDI (42), for every literal. -/
def Obligations.LdiResult : Prop :=
  ∀ (s : State) (a : Fin 8) (b : Byte), s.pc.toNat + 3 ≤ 255 →
    exec (.ldi (regByte a) b) s = .next { s with x := s.x.set a b, pc := s.pc + 3#8 }

/-- PRN (42; the emitted value and `OUT` are D24): the register's value is appended to the output trace. -/
def Obligations.PrnResult : Prop :=
  ∀ (s : State) (a : Fin 8), s.pc.toNat + 2 ≤ 255 →
    exec (.prn (regByte a)) s = .next { s with out := s.out ++ [s.x[a]], pc := s.pc + 2#8 }

/-- PUSH (43; PUSH R7 is D16): the pointer goes down by one and the register is stored there; PUSH R7 stores the
decremented pointer. -/
def Obligations.PushResult : Prop :=
  ∀ (s : State) (a : Fin 8), s.x[7] ≠ 0x00#8 → s.pc.toNat + 2 ≤ 255 →
    exec (.push (regByte a)) s =
      .next { s with
        x := s.x.set 7 (s.x[7] - 1#8),
        mem := s.mem.write (s.x[7] - 1#8) (if a = 7 then s.x[7] - 1#8 else s.x[a]),
        pc := s.pc + 2#8 }

/-- POP (43; POP R7 is D16): the byte at the pointer, and the pointer up by one; POP R7 loads the pointer, then
increments it. -/
def Obligations.PopResult : Prop :=
  ∀ (s : State) (a : Fin 8), s.x[7] ≠ 0xFF#8 → s.pc.toNat + 2 ≤ 255 →
    (a ≠ 7 → exec (.pop (regByte a)) s =
      .next { s with x := (s.x.set a (s.memRead s.x[7])).set 7 (s.x[7] + 1#8), pc := s.pc + 2#8 }) ∧
    (a = 7 → s.memRead s.x[7] ≠ 0xFF#8 → exec (.pop (regByte a)) s =
      .next { s with x := s.x.set 7 (s.memRead s.x[7] + 1#8), pc := s.pc + 2#8 })

/-- CALL (43; CALL R7 is D16): the return address is pushed and `pc` is the register's value after the push. -/
def Obligations.CallResult : Prop :=
  ∀ (s : State) (a : Fin 8), s.x[7] ≠ 0x00#8 → s.pc.toNat + 2 ≤ 255 →
    exec (.call (regByte a)) s =
      .next { s with
        x := s.x.set 7 (s.x[7] - 1#8),
        mem := s.mem.write (s.x[7] - 1#8) (s.pc + 2#8),
        pc := if a = 7 then s.x[7] - 1#8 else s.x[a] }

/-- RET (43): the popped byte is the new `pc`, wherever the instruction stands. -/
def Obligations.RetResult : Prop :=
  ∀ s : State, s.x[7] ≠ 0xFF#8 →
    exec .ret s = .next { s with x := s.x.set 7 (s.x[7] + 1#8), pc := s.memRead s.x[7] }

/-- JMP (44): `pc` is the register's value, any of the 256, wherever the instruction stands. -/
def Obligations.JmpResult : Prop :=
  ∀ (s : State) (a : Fin 8), exec (.jmp (regByte a)) s = .next { s with pc := s.x[a] }

/-- JEQ (44): only `FL[0]` is read; taken anywhere, not taken where the next instruction has an address. -/
def Obligations.JeqResult : Prop :=
  ∀ (s : State) (a : Fin 8),
    (s.fl.toNat % 2 = 1 → exec (.jeq (regByte a)) s = .next { s with pc := s.x[a] }) ∧
    (s.fl.toNat % 2 = 0 → s.pc.toNat + 2 ≤ 255 → exec (.jeq (regByte a)) s = .next { s with pc := s.pc + 2#8 })

/-- JNE (44): only `FL[0]` is read; taken when it is clear, the reset flags included. -/
def Obligations.JneResult : Prop :=
  ∀ (s : State) (a : Fin 8),
    (s.fl.toNat % 2 = 0 → exec (.jne (regByte a)) s = .next { s with pc := s.x[a] }) ∧
    (s.fl.toNat % 2 = 1 → s.pc.toNat + 2 ≤ 255 → exec (.jne (regByte a)) s = .next { s with pc := s.pc + 2#8 })

/-- HLT (40; no advance is D11, the registers written are D10): anywhere in memory, 0xFF included. -/
def Obligations.HltResult : Prop :=
  ∀ s : State, exec .hlt s = .next (s.stoppedWith .halted .haltInstruction 0x00#8)

/-- IRET (45; the three flag bits are D12): nine pops from ascending addresses restore `x[6]` down to `x[0]`, `FL` and
`pc`; the pointer is 9 higher and `IE` is set, whether or not an interrupt was in progress (D31). -/
def Obligations.IretResult : Prop :=
  ∀ s : State, s.x[7].toNat ≤ 0xF6 →
    exec .iret s =
      .next { s with
        x := #v[s.memRead (s.x[7] + 6#8), s.memRead (s.x[7] + 5#8), s.memRead (s.x[7] + 4#8), s.memRead (s.x[7] + 3#8),
          s.memRead (s.x[7] + 2#8), s.memRead (s.x[7] + 1#8), s.memRead s.x[7], s.x[7] + 9#8],
        fl := (s.memRead (s.x[7] + 7#8)).setWidth 3,
        pc := s.memRead (s.x[7] + 8#8),
        ie := true }

/-- R151's round-trip law (the source's property; R7 by D16): PUSH then POP of the same register restores every register,
`x[7]` included, advances `pc` by 4, and changes the one cell below the old pointer. -/
def Obligations.PushThenPopRestores : Prop :=
  ∀ (s : State) (a : Fin 8), s.x[7] ≠ 0x00#8 → s.pc.toNat + 4 ≤ 255 →
    ∃ t, exec (.push (regByte a)) s = .next t ∧
      exec (.pop (regByte a)) t =
        .next { s with
          mem := s.mem.write (s.x[7] - 1#8) (if a = 7 then s.x[7] - 1#8 else s.x[a]), pc := s.pc + 4#8 }

/-- R154's address-preservation law (marked as derived by the spec): if the pointer and the cell it points at are, at a
later RET, as the CALL left them, the RET goes to the instruction after the CALL and restores the pointer. -/
def Obligations.CallThenReturnComesBack : Prop :=
  ∀ (s : State) (a : Fin 8), s.x[7] ≠ 0x00#8 → s.pc.toNat + 2 ≤ 255 →
    ∃ t, exec (.call (regByte a)) s = .next t ∧
      ∀ u : State, u.x[7] = t.x[7] → u.memRead t.x[7] = t.memRead t.x[7] →
        exec .ret u = .next { u with x := u.x.set 7 s.x[7], pc := s.pc + 2#8 }

/-! ## Faults -/

/-- R186 and 40 R108 (the policy is the spec's decision D9): a register operand byte above 7 raises RegisterIndex with
that byte, byte `a` before byte `b`, before any other condition of the instruction. -/
def Obligations.RegisterIndexRaised : Prop :=
  (∀ (s : State) (a b : Byte), 7 < a.toNat →
    ∀ i ∈ ([.push a, .pop a, .prn a, .call a, .jmp a, .jeq a, .jne a, .not a, .ldi a b, .addi a b, .add a b, .sub a b,
      .mul a b, .mod a b, .cmp a b, .and a b, .or a b, .xor a b, .shl a b, .shr a b] : List Instr),
      exec i s = .next (s.stoppedWith .faulted .registerIndex a)) ∧
  (∀ (s : State) (a b : Byte), a.toNat ≤ 7 → 7 < b.toNat →
    ∀ i ∈ ([.add a b, .sub a b, .mul a b, .mod a b, .cmp a b, .and a b, .or a b, .xor a b, .shl a b, .shr a b] :
      List Instr), exec i s = .next (s.stoppedWith .faulted .registerIndex b))

/-- R185: PcBound is raised by the sequential advance of an instruction that ends at 0xFF, by CALL at 0xFE and by JEQ or
JNE not taken at 0xFE; HLT and a MOD dividing by zero never raise it; and no sequential advance wraps `pc`. That the
bound is fatal is D8 (R25, R109), the value in `EINFO` and that nothing else changes are R181 and R188 (D10), and that a
CALL at 0xFE reports it at `SP` 0x00 too is the order of R189 (D22). -/
def Obligations.PcBoundRaised : Prop :=
  (∀ (s : State) (a b : Fin 8) (v : Byte), s.pc.toNat = 0xFD →
    (∀ i ∈ ([.ldi (regByte a) v, .addi (regByte a) v, .add (regByte a) (regByte b), .sub (regByte a) (regByte b),
      .mul (regByte a) (regByte b), .cmp (regByte a) (regByte b), .and (regByte a) (regByte b),
      .or (regByte a) (regByte b), .xor (regByte a) (regByte b), .shl (regByte a) (regByte b),
      .shr (regByte a) (regByte b)] : List Instr), exec i s = .next (s.stoppedWith .faulted .pcBound 0x03#8)) ∧
    (s.x[b] ≠ 0x00#8 →
      exec (.mod (regByte a) (regByte b)) s = .next (s.stoppedWith .faulted .pcBound 0x03#8))) ∧
  (∀ (s : State) (a : Fin 8), s.pc.toNat = 0xFE →
    (∀ i ∈ ([.prn (regByte a), .not (regByte a), .call (regByte a)] : List Instr),
      exec i s = .next (s.stoppedWith .faulted .pcBound 0x02#8)) ∧
    (s.x[7] ≠ 0x00#8 → exec (.push (regByte a)) s = .next (s.stoppedWith .faulted .pcBound 0x02#8)) ∧
    (s.x[7] ≠ 0xFF#8 → (a = 7 → s.memRead s.x[7] ≠ 0xFF#8) →
      exec (.pop (regByte a)) s = .next (s.stoppedWith .faulted .pcBound 0x02#8)) ∧
    (s.flagE = false → exec (.jeq (regByte a)) s = .next (s.stoppedWith .faulted .pcBound 0x02#8)) ∧
    (s.flagE = true → exec (.jne (regByte a)) s = .next (s.stoppedWith .faulted .pcBound 0x02#8))) ∧
  (∀ (i : Instr) (s t : State), s.cause ≠ .pcBound → exec i s = .next t → t.cause = .pcBound →
    i ≠ .hlt ∧ ∀ a b : Fin 8, i = .mod (regByte a) (regByte b) → s.x[b] ≠ 0x00#8) ∧
  (∀ (i : Instr) (s t : State), setsPc i.opcode.byte = false → exec i s = .next t → s.pc.toNat ≤ t.pc.toNat)

/-- R187: a push that would take the pointer below 0x00 or a pop that would take it above 0xFF raises StackBound: in
PUSH, POP, CALL, RET, IRET, and in interrupt entry (phase I); no other instruction raises it. The pop at 0xFF is D8, POP
R7 of 0xFF is D16 (R151), the ranges of IRET and of entry are marked as derived by R57, the value in `EINFO` and that
nothing else changes are R181 and R188 (D10), and the order against PcBound is R189's (D22). -/
def Obligations.StackBoundRaised : Prop :=
  (∀ (s : State) (a : Fin 8), s.x[7] = 0x00#8 →
    exec (.push (regByte a)) s = .next (s.stoppedWith .faulted .stackBound 0x00#8) ∧
    (s.pc.toNat + 2 ≤ 255 → exec (.call (regByte a)) s = .next (s.stoppedWith .faulted .stackBound 0x00#8))) ∧
  (∀ (s : State) (a : Fin 8), s.x[7] = 0xFF#8 →
    exec (.pop (regByte a)) s = .next (s.stoppedWith .faulted .stackBound 0xFF#8) ∧
    exec .ret s = .next (s.stoppedWith .faulted .stackBound 0xFF#8)) ∧
  (∀ s : State, s.memRead s.x[7] = 0xFF#8 →
    exec (.pop (regByte 7)) s = .next (s.stoppedWith .faulted .stackBound 0xFF#8)) ∧
  (∀ s : State, 0xF6 < s.x[7].toNat → exec .iret s = .next (s.stoppedWith .faulted .stackBound 0xFF#8)) ∧
  (∀ (s : State) (n : Fin 8), s.x[7].toNat < 9 → interruptEntry n s = .error ⟨.faulted, .stackBound, 0x00#8⟩) ∧
  (∀ (i : Instr) (s t : State), s.cause ≠ .stackBound → exec i s = .next t → t.cause = .stackBound →
    i = .ret ∨ i = .iret ∨ ∃ a : Fin 8, i = .push (regByte a) ∨ i = .pop (regByte a) ∨ i = .call (regByte a))

/-- R184 and 40 R105 (fatal by D8, the bytes read by D14): FetchBound is raised, with `EINFO` = `NOPS`, exactly when a
known opcode's last operand byte would lie above 0xFF: a 2-byte instruction at 0xFF, a 3-byte one at 0xFE or 0xFF. -/
def Obligations.FetchBoundRaised : Prop :=
  ∀ s : State, rom (s.memRead s.pc) ≠ none →
    (255 < s.pc.toNat + (s.memRead s.pc).toNat / 64 →
      executePhase s = .next (s.stoppedWith .faulted .fetchBound (BitVec.ofNat 8 ((s.memRead s.pc).toNat / 64)))) ∧
    (s.pc.toNat + (s.memRead s.pc).toNat / 64 ≤ 255 →
      ∃ i : Instr, fetch s = .ok i ∧ i.opcode.byte = s.memRead s.pc)

/-- R182: an unknown opcode at `pc` stops the machine at once, with the `pc` in `EPC` and the opcode value in `EINFO`; it
is no silent no-op. That the writes of phases P and I of the step stay and nothing else changes is R188 (D10), and that
it comes before FetchBound at 0xFF is R107 (D22). -/
def Obligations.UnknownOpcodeRaised : Prop :=
  ∀ (s t : State) (irqIn : Byte) (kbdWrite : Option Byte), s.run = .running →
    s.nextInput = .sample irqIn kbdWrite → serviceInterrupts (poll irqIn kbdWrite s.takeInput) = .ok t →
    rom (t.memRead t.pc) = none →
    step s = .next (t.stoppedWith .faulted .unknownOpcode (t.memRead t.pc))

/-- R188 (the spec's decision D10): a phase that stops the machine commits nothing: after phase X the state is that at
its start but for `RUN`, `CAUSE`, `EPC`, `EINFO`; after phase I it is that after phase P in the same way. -/
def Obligations.StopsArePrecise : Prop :=
  (∀ (i : Instr) (s t : State), s.run = .running → exec i s = .next t → t.run ≠ .running →
    t = s.stoppedWith t.run t.cause t.einfo) ∧
  (∀ (s : State) (irqIn : Byte) (kbdWrite : Option Byte) (e : Stop), s.run = .running →
    s.nextInput = .sample irqIn kbdWrite → serviceInterrupts (poll irqIn kbdWrite s.takeInput) = .error e →
    step s = .next ((poll irqIn kbdWrite s.takeInput).stoppedWith .faulted .stackBound 0x00#8))

/-- 40 R100, in this model's form (log 3, DESIGN CHOICE: where the spec has no step, the model's step changes nothing): a
stopped machine changes no state and ignores its inputs. -/
def Obligations.StoppedMachineStays : Prop :=
  ∀ s : State, s.run ≠ .running →
    (s.inputs = [] → step s = .next s) ∧
    (∀ (irqIn : Byte) (kbdWrite : Option Byte) (rest : List StepInput),
      s.inputs = .sample irqIn kbdWrite :: rest → step s = .next { s with inputs := rest })

/-! ## Interrupts -/

/-- 40 R102 (the absence of edge detection is D19): phase P writes the key code, if any, to cell 0xF4, then ORs `irq_in`
into `x[6]`, whatever `IE` is, and does nothing else. -/
def Obligations.PollAccumulates : Prop :=
  ∀ (s : State) (irqIn key : Byte),
    poll irqIn none s = { s with x := s.x.set 6 (s.x[6] ||| irqIn) } ∧
    poll irqIn (some key) s = { s with x := s.x.set 6 (s.x[6] ||| irqIn), mem := s.mem.write 0xF4#8 key }

/-- R103 and R194: after the poll of the same step, with interrupts active and mask & pending non-zero, the lowest set bit
is dispatched, one line per step; else phase I does nothing. It is stated over the mask register `IM` and the pending
register `IS`; at which indices the two stand (D4, log 7) plays no part in it. -/
def Obligations.LowestEnabledLineIsTaken : Prop :=
  ∀ (s : State) (irqIn : Byte) (kbdWrite : Option Byte),
    (∀ n : Fin 8, s.ie = true → (s.im &&& (s.pending ||| irqIn)).getLsbD n = true →
      (∀ m : Fin 8, m < n → (s.im &&& (s.pending ||| irqIn)).getLsbD m = false) →
      serviceInterrupts (poll irqIn kbdWrite s) = interruptEntry n (poll irqIn kbdWrite s)) ∧
    (s.ie = false ∨ s.im &&& (s.pending ||| irqIn) = 0x00#8 →
      serviceInterrupts (poll irqIn kbdWrite s) = .ok (poll irqIn kbdWrite s))

/-- 60 R196 (clearing the whole register is D17, the vector's indirection and its read after the pushes D18): what
interrupt entry saves and where, what it changes, and that it changes nothing else. -/
def Obligations.InterruptEntrySavesTheFrame : Prop :=
  ∀ (s : State) (n : Fin 8), 9 ≤ s.x[7].toNat →
    ∃ t, interruptEntry n s = .ok t ∧
      t = { s with
        x := (s.x.set 6 0x00#8).set 7 (s.x[7] - 9#8), ie := false, mem := t.mem,
        pc := t.memRead (BitVec.ofNat 8 (0xF8 + n.val)) } ∧
      t.memRead (s.x[7] - 1#8) = s.pc ∧ t.memRead (s.x[7] - 2#8) = BitVec.ofNat 8 s.fl.toNat ∧
      t.memRead (s.x[7] - 3#8) = s.x[0] ∧ t.memRead (s.x[7] - 4#8) = s.x[1] ∧ t.memRead (s.x[7] - 5#8) = s.x[2] ∧
      t.memRead (s.x[7] - 6#8) = s.x[3] ∧ t.memRead (s.x[7] - 7#8) = s.x[4] ∧ t.memRead (s.x[7] - 8#8) = s.x[5] ∧
      t.memRead (s.x[7] - 9#8) = 0x00#8 ∧
      ∀ a : Byte, a.toNat + 9 < s.x[7].toNat ∨ s.x[7].toNat ≤ a.toNat → t.memRead a = s.memRead a

/-- 45 R171, the restoration law (marked as derived by the spec): if at the IRET the pointer and the nine saved cells are
as entry left them, then `x[0]`..`x[5]`, `x[7]`, `FL` and `pc` are as before the entry, `IE` is 1 and `x[6]` is 0x00. -/
def Obligations.EntryThenIretRestores : Prop :=
  ∀ (s t u : State) (n : Fin 8), interruptEntry n s = .ok t → u.x[7] = t.x[7] →
    (∀ k : Fin 9, u.memRead (t.x[7] + BitVec.ofNat 8 k) = t.memRead (t.x[7] + BitVec.ofNat 8 k)) →
    exec .iret u = .next { u with x := s.x.set 6 0x00#8, fl := s.fl, pc := s.pc, ie := true }

/-- 60 R198 (its sentence on this is marked as derived) and R199: only IRET or `rst` sets `IE`; with `IE` clear no step of any other
instruction, and no input, re-enables interrupts. The byte 0x13 of IRET is the spec's
presumption (D1, log 6). -/
def Obligations.OnlyIretOrResetEnables : Prop :=
  ∀ s t : State, step s = .next t → s.ie = false → t.ie = true →
    s.nextInput = .rst ∨
      ∃ (irqIn : Byte) (kbdWrite : Option Byte), s.nextInput = .sample irqIn kbdWrite ∧ s.run = .running ∧
        (poll irqIn kbdWrite s.takeInput).memRead s.pc = 0x13#8

/-! ## The whole step -/

/-- 10_state R27: only CMP, IRET and `rst` change the flags. The bytes 0xA7 of CMP and 0x13 of IRET are the spec's
presumption (D1, log 6). -/
def Obligations.OnlyCmpIretResetWriteFlags : Prop :=
  ∀ s t : State, step s = .next t → t.fl ≠ s.fl →
    s.nextInput = .rst ∨
      ∃ (irqIn : Byte) (kbdWrite : Option Byte) (u : State), s.nextInput = .sample irqIn kbdWrite ∧
        serviceInterrupts (poll irqIn kbdWrite s.takeInput) = .ok u ∧
        (u.memRead u.pc = 0xA7#8 ∨ u.memRead u.pc = 0x13#8)

/-- 10_state R35 (`OUT` and its emptiness at reset are D24): but for `rst`, a step keeps what was emitted and adds at most
one value, that of the register a PRN names. The byte 0x47 of PRN is the spec's presumption (D1, log 6). -/
def Obligations.OutputOnlyGrowsByPrn : Prop :=
  ∀ s t : State, step s = .next t → s.nextInput ≠ .rst →
    t.out = s.out ∨
      ∃ (irqIn : Byte) (kbdWrite : Option Byte) (u : State) (a : Fin 8), s.nextInput = .sample irqIn kbdWrite ∧
        serviceInterrupts (poll irqIn kbdWrite s.takeInput) = .ok u ∧ u.memRead u.pc = 0x47#8 ∧
        u.memRead (u.pc + 1#8) = regByte a ∧ t.out = s.out ++ [u.x[a]]

/-- 40 R101 (the shape of a step is D19): when the bytes at `pc`, after phases P and I of the step, are an instruction,
well-formed or not, the step is that instruction's meaning at that state. -/
def Obligations.StepRunsTheDecodedInstruction : Prop :=
  ∀ (s t : State) (irqIn : Byte) (kbdWrite : Option Byte) (bytes : List Byte) (i : Instr), s.run = .running →
    s.nextInput = .sample irqIn kbdWrite → serviceInterrupts (poll irqIn kbdWrite s.takeInput) = .ok t →
    decode bytes = .ok (i, []) →
    (∀ (k : Nat) (h : k < bytes.length), t.pc.toNat + k ≤ 255 ∧ t.memRead (t.pc + BitVec.ofNat 8 k) = bytes[k]) →
    step s = exec i t

/-- 70 R220 and R221 (its form as a transaction is this model's, log 2; memory kept by D30): `rst` in any run state puts
every register at its reset value and leaves memory alone. -/
def Obligations.ResetFromAnyState : Prop :=
  ∀ (s : State) (rest : List StepInput), s.inputs = .rst :: rest →
    step s = .next { State.reset with mem := s.mem, inputs := rest }

/-- The invariant of `EveryStepKeepsTheInvariant` holds at reset. Its first part, the canonical form of memory, is this
model's choice (log 12, DESIGN CHOICE) and no rule of the spec; its second part reads the diagnostic registers, which with
their reset values are the spec's decision D10. -/
def Obligations.InvariantAtReset : Prop := State.reset.Inv

/-- The invariant (memory in the model's canonical form, log 12, DESIGN CHOICE; `RUN`, `CAUSE`, `EPC`, `EINFO` a row of
R181's table that is true of the stopped state, R188, D10, the bytes of HLT and MOD by D1, log 6) is kept by every step
from every state that has it, not only from reachable ones. -/
def Obligations.EveryStepKeepsTheInvariant : Prop :=
  ∀ s t : State, s.Inv → step s = .next t → t.Inv

/-- Every state has a next state: no step ends in a fault or a refusal of the interface, since every stop the spec
describes is a state (R32, R188; log 4, and log 3 for stopped machines). -/
def Obligations.EveryStepAnswers : Prop :=
  ∀ s : State, ∃ t, step s = .next t

/-- Frame of the forms that store nothing (R27, R34, 41 R120, 42, 43, 44, 45), whether the instruction completes or
stops: registers other than the destinations, flags but for CMP and IRET, `IE` but for IRET, the output but for PRN, and
every byte of memory are unchanged; the diagnostic registers change only with a stop. -/
def Obligations.FrameOfFormsThatStoreNothing : Prop :=
  ∀ (s t : State) (a b : Byte) (i : Instr), i ≠ .push a → i ≠ .call a →
    (i = .hlt ∨ i = .ret ∨ i = .iret ∨ i.operands = [a] ∨ i.operands = [a, b]) → exec i s = .next t →
    (∀ c : Byte, t.memRead c = s.memRead c) ∧ t.inputs = s.inputs ∧
    (i ≠ .iret → t.ie = s.ie) ∧ (i ≠ .iret → i ≠ .cmp a b → t.fl = s.fl) ∧ (i ≠ .prn a → t.out = s.out) ∧
    (∀ r : Fin 8, i ≠ .iret → (r = 7 → i ≠ .ret ∧ i ≠ .pop a) → r.val ≠ a.toNat → t.x[r] = s.x[r]) ∧
    (∀ r : Fin 8, i = .cmp a b ∨ i = .prn a ∨ i = .jmp a ∨ i = .jeq a ∨ i = .jne a ∨ i = .hlt → t.x[r] = s.x[r]) ∧
    ((t.run = s.run ∧ t.cause = s.cause ∧ t.epc = s.epc ∧ t.einfo = s.einfo) ∨ (t.run ≠ .running ∧ t.pc = s.pc))

/-- Frame of the forms that store (43): PUSH and CALL change no register but `x[7]`, and no byte of memory but the one at
the decremented pointer, whether they complete or stop. -/
def Obligations.FrameOfFormsThatStore : Prop :=
  ∀ (s t : State) (a : Byte) (i : Instr), i = .push a ∨ i = .call a → exec i s = .next t →
    (∀ c : Byte, c ≠ s.x[7] - 1#8 → t.memRead c = s.memRead c) ∧ t.inputs = s.inputs ∧ t.ie = s.ie ∧ t.fl = s.fl ∧
    t.out = s.out ∧ (∀ r : Fin 8, r ≠ 7 → t.x[r] = s.x[r]) ∧
    ((t.run = s.run ∧ t.cause = s.cause ∧ t.epc = s.epc ∧ t.einfo = s.einfo) ∨
      (t.run ≠ .running ∧ t.pc = s.pc ∧ ∀ c : Byte, t.memRead c = s.memRead c))

/-! ## The program image -/

/-- R77: a text of byte lines, each with or without a trailing comment, blank lines and comment-only lines is read as its
byte lines in order, and loading an image of at most 256 bytes writes the k-th of them to address k; that it writes nothing
else is R222. R77's example shows one blank before a comment: that any number of blanks is accepted there is this model's
choice (log 10, DESIGN CHOICE). -/
def Obligations.ImageLinesAreLoadedInOrder : Prop :=
  ∀ (lines : List (Option Byte × Option (Nat × List Char))) (s : State), (lines.filterMap (·.1)).length ≤ 256 →
    imageOfLines (lines.map fun l => imageLine l.1 l.2) = some (lines.filterMap (·.1)) ∧
    ∃ t, loadImage (lines.filterMap (·.1)) s = some t ∧ t = { s with mem := t.mem } ∧
      (∀ (k : Nat) (h : k < (lines.filterMap (·.1)).length),
        t.memRead (BitVec.ofNat 8 k) = (lines.filterMap (·.1))[k]) ∧
      ∀ a : Byte, (lines.filterMap (·.1)).length ≤ a.toNat → t.memRead a = s.memRead a
end

