-- ==== Sys2Proof/Laws/Decode.lean ====
section
/-! SUPPORT. What the ROM and the decoder can answer, so that no later proof unfolds them. -/

namespace Sys2Proof

/-- The ROM finds each handler under its own byte (30_encoding R79). -/
@[simp] theorem rom_byte (o : Opcode) : rom o.byte = some o := by cases o <;> decide

/-- The ROM's entry for a byte is the handler with that byte. -/
theorem rom_eq_some {op : Byte} {o : Opcode} : rom op = some o ↔ o.byte = op := by
  constructor
  · intro h
    simpa using List.find?_some h
  · rintro rfl
    exact rom_byte o

/-- A byte without an entry is unknown (R74, R107). -/
theorem decodeOp_of_none {op : Byte} {rest : List Byte} (h : rom op = none) :
    decodeOp op rest = .error (.unknownOpcode op) := by
  simp [decodeOp, h]

/-- A known byte is decoded by its handler from exactly `NOPS` operand bytes (R105, R106). -/
theorem decodeOp_zero (o : Opcode) (h : nops o.byte = 0) (rest : List Byte) :
    decodeOp o.byte rest = .ok (o.instr 0 0, rest) := by
  unfold decodeOp
  rw [rom_byte, h]
  rfl

theorem decodeOp_one (o : Opcode) (h : nops o.byte = 1) (a : Byte) (rest : List Byte) :
    decodeOp o.byte (a :: rest) = .ok (o.instr a 0, rest) := by
  unfold decodeOp
  rw [rom_byte, h]
  rfl

theorem decodeOp_two (o : Opcode) (h : nops o.byte = 2) (a b : Byte) (rest : List Byte) :
    decodeOp o.byte (a :: b :: rest) = .ok (o.instr a b, rest) := by
  unfold decodeOp
  rw [rom_byte, h]
  rfl

/-- Everything a successful decoding can be. -/
theorem decodeOp_ok {op : Byte} {rest rest' : List Byte} {i : Instr} (h : decodeOp op rest = .ok (i, rest')) :
    ∃ o : Opcode, o.byte = op ∧
      ((nops op = 0 ∧ rest = rest' ∧ i = o.instr 0 0) ∨
        (nops op = 1 ∧ ∃ a, rest = a :: rest' ∧ i = o.instr a 0) ∨
        (nops op = 2 ∧ ∃ a b, rest = a :: b :: rest' ∧ i = o.instr a b)) := by
  unfold decodeOp at h
  split at h
  · cases h
  · rename_i o ho
    refine ⟨o, rom_eq_some.mp ho, ?_⟩
    split at h <;> cases h
    · exact .inl ⟨‹_›, rfl, rfl⟩
    · exact .inr (.inl ⟨‹_›, _, rfl, rfl⟩)
    · exact .inr (.inr ⟨‹_›, _, _, rfl, rfl⟩)

/-- A known opcode has at most two operand bytes (R70). -/
theorem nops_le (op : Byte) (h : rom op ≠ none) : nops op ≤ 2 := by
  cases ho : rom op with
  | none => exact absurd ho h
  | some o =>
    obtain rfl := rom_eq_some.mp ho
    cases o <;> decide

/-- Everything a failed decoding can be. -/
theorem decodeOp_error {op : Byte} {rest : List Byte} {e : DecodeError} (h : decodeOp op rest = .error e) :
    (rom op = none ∧ e = .unknownOpcode op) ∨
      (rom op ≠ none ∧ rest.length < nops op ∧ e = .missingOperand (nops op)) := by
  unfold decodeOp at h
  split at h
  · cases h
    exact .inl ⟨‹_›, rfl⟩
  · rename_i o ho
    obtain rfl := rom_eq_some.mp ho
    refine .inr ⟨by simp, ?_⟩
    generalize hn : nops o.byte = n at h ⊢
    have hle : n ≤ 2 := by subst hn; cases o <;> decide
    match n, rest, hle with
    | 0, rest, _ => cases h
    | 1, [], _ => cases h; simp
    | 1, a :: rest, _ => cases h
    | 2, [], _ => cases h; simp
    | 2, [a], _ => cases h; simp
    | 2, a :: b :: rest, _ => cases h

end Sys2Proof
end

