-- ==== Sys2Proof/Laws/Memory.lean ====
section
/-! SUPPORT. The laws of the memory list: what erasing and inserting a cell do to a read, and that every memory
operation keeps the canonical form. -/

namespace Sys2Proof.Machine

/-! ## Reads -/

theorem Memory.read_erase (m : Memory) (a c : Byte) :
    (m.erase a).read c = if c = a then Memory.unlisted else m.read c := by
  induction m with
  | nil => simp [Memory.erase, Memory.read]
  | cons d rest ih =>
    unfold Memory.erase at ih ⊢
    by_cases hd : d.1 = a.toNat
    · rw [List.filter_cons_of_neg (by simp [hd]), ih]
      by_cases hc : c = a
      · simp [hc]
      · have : ¬ a.toNat = c.toNat := fun h => hc (BitVec.eq_of_toNat_eq h.symm)
        simp [hc, Memory.read, hd, this]
    · rw [List.filter_cons_of_pos (by simp [hd])]
      by_cases hc : c = a
      · subst hc
        simp_all [Memory.read]
      · simp [Memory.read, ih, hc]

theorem Memory.read_insertCell (m : Memory) (a v c : Byte) (h : ∀ d ∈ m, d.1 ≠ a.toNat) :
    (Memory.insertCell (a.toNat, v) m).read c = if c = a then v else m.read c := by
  have hne : ∀ {c : Byte}, c ≠ a → a.toNat ≠ c.toNat := fun hc h => hc (BitVec.eq_of_toNat_eq h.symm)
  induction m with
  | nil => by_cases hc : c = a <;> simp_all [Memory.insertCell, Memory.read]
  | cons d rest ih =>
    have ih := ih fun e he => h e (List.mem_cons_of_mem _ he)
    have hd := h d List.mem_cons_self
    unfold Memory.insertCell
    split
    · by_cases hc : c = a <;> simp_all [Memory.read]
    · by_cases hc : c = a <;> simp_all [Memory.read]

theorem Memory.ne_of_mem_erase {m : Memory} {a : Byte} {d : Host.Cell} (h : d ∈ m.erase a) : d.1 ≠ a.toNat := by
  simpa using (List.mem_filter.mp h).2

/-- Reading after a write of a byte (R56). -/
theorem Memory.read_write (m : Memory) (a v c : Byte) :
    (m.write a v).read c = if c = a then v else m.read c := by
  unfold Memory.write
  split
  · rw [Memory.read_erase]
    split <;> simp_all
  · rw [Memory.read_insertCell _ _ _ _ fun d hd => Memory.ne_of_mem_erase hd, Memory.read_erase]
    split <;> rfl

/-! ## The canonical form -/

theorem Memory.wfFrom_cons {lo : Nat} {c : Host.Cell} {m : Memory} :
    Memory.wfFrom lo (c :: m) = true ↔
      lo ≤ c.1 ∧ c.1 < 256 ∧ c.2 ≠ Memory.unlisted ∧ Memory.wfFrom (c.1 + 1) m = true := by
  simp [Memory.wfFrom, and_assoc]

theorem Memory.wfFrom_weaken {lo lo' : Nat} {m : Memory} (h : Memory.wfFrom lo m = true) (hle : lo' ≤ lo) :
    Memory.wfFrom lo' m = true := by
  cases m with
  | nil => rfl
  | cons c rest =>
    rw [Memory.wfFrom_cons] at h ⊢
    exact ⟨hle.trans h.1, h.2⟩

theorem Memory.wfFrom_erase {lo : Nat} {m : Memory} (a : Byte) (h : Memory.wfFrom lo m = true) :
    Memory.wfFrom lo (m.erase a) = true := by
  induction m generalizing lo with
  | nil => rfl
  | cons c rest ih =>
    obtain ⟨hlo, hlt, hv, hrest⟩ := Memory.wfFrom_cons.mp h
    unfold Memory.erase at ih ⊢
    by_cases hc : c.1 = a.toNat
    · rw [List.filter_cons_of_neg (by simp [hc])]
      exact Memory.wfFrom_weaken (ih hrest) (by omega)
    · rw [List.filter_cons_of_pos (by simp [hc])]
      exact Memory.wfFrom_cons.mpr ⟨hlo, hlt, hv, ih hrest⟩

theorem Memory.wfFrom_insertCell {lo : Nat} {m : Memory} {c : Host.Cell} (h : Memory.wfFrom lo m = true)
    (hlo : lo ≤ c.1) (hlt : c.1 < 256) (hv : c.2 ≠ Memory.unlisted) (hnew : ∀ d ∈ m, d.1 ≠ c.1) :
    Memory.wfFrom lo (Memory.insertCell c m) = true := by
  induction m generalizing lo with
  | nil => exact Memory.wfFrom_cons.mpr ⟨hlo, hlt, hv, rfl⟩
  | cons d rest ih =>
    obtain ⟨hdlo, hdlt, hdv, hrest⟩ := Memory.wfFrom_cons.mp h
    have hd := hnew d List.mem_cons_self
    unfold Memory.insertCell
    split
    · exact Memory.wfFrom_cons.mpr ⟨hlo, hlt, hv, Memory.wfFrom_cons.mpr ⟨by omega, hdlt, hdv, hrest⟩⟩
    · exact Memory.wfFrom_cons.mpr
        ⟨hdlo, hdlt, hdv, ih hrest (by omega) fun e he => hnew e (List.mem_cons_of_mem _ he)⟩

/-- Every memory operation keeps the canonical form: there is one, the write of a byte (R56). -/
theorem Memory.write_wf {m : Memory} (a v : Byte) (h : m.wf = true) : (m.write a v).wf = true := by
  unfold Memory.write
  split
  · exact Memory.wfFrom_erase a h
  · exact Memory.wfFrom_insertCell (Memory.wfFrom_erase a h) (Nat.zero_le _) a.isLt ‹_›
      fun d hd => Memory.ne_of_mem_erase hd

end Sys2Proof.Machine
end

