-- ==== Sys2Proof/Laws/State.lean ====
section
/-! SUPPORT. One lemma per field per update of State, so that no later proof unfolds a record update; the register file
is read through `State.reg` and memory through `State.memRead`. -/

namespace Sys2Proof.Machine

variable (s : State)

/-! ## The register file -/

theorem State.reg_setReg (r q : Fin 8) (v : Byte) : (s.setReg r v).reg q = if q = r then v else s.reg q := by
  unfold State.reg State.setReg
  simp only [Fin.getElem_fin, Vector.getElem_set]
  grind

@[simp] theorem State.reg_setReg_self (r : Fin 8) (v : Byte) : (s.setReg r v).reg r = v := by
  simp [State.reg_setReg]

@[simp] theorem State.reg_setReg_of_ne (r q : Fin 8) (v : Byte) (h : q ≠ r) : (s.setReg r v).reg q = s.reg q := by
  simp [State.reg_setReg, h]

/-- Two states are equal when every register and every other field is. -/
theorem State.ext_reg {s t : State} (hx : ∀ r, s.reg r = t.reg r) (hpc : s.pc = t.pc) (hfl : s.fl = t.fl)
    (hie : s.ie = t.ie) (hrun : s.run = t.run) (hcause : s.cause = t.cause) (hepc : s.epc = t.epc)
    (heinfo : s.einfo = t.einfo) (hout : s.out = t.out) (hmem : s.mem = t.mem) (hinputs : s.inputs = t.inputs) :
    s = t := by
  have hv : s.x = t.x := Vector.ext fun i hi => hx ⟨i, hi⟩
  cases s; cases t; simp_all

/-! ## The aliases -/

theorem State.sp_eq : s.sp = s.reg 7 := rfl
theorem State.im_eq : s.im = s.reg 5 := rfl
theorem State.pending_eq : s.pending = s.reg 6 := rfl

/-! ## setReg -/

@[simp] theorem State.setReg_pc (r : Fin 8) (v : Byte) : (s.setReg r v).pc = s.pc := rfl
@[simp] theorem State.setReg_fl (r : Fin 8) (v : Byte) : (s.setReg r v).fl = s.fl := rfl
@[simp] theorem State.setReg_ie (r : Fin 8) (v : Byte) : (s.setReg r v).ie = s.ie := rfl
@[simp] theorem State.setReg_run (r : Fin 8) (v : Byte) : (s.setReg r v).run = s.run := rfl
@[simp] theorem State.setReg_cause (r : Fin 8) (v : Byte) : (s.setReg r v).cause = s.cause := rfl
@[simp] theorem State.setReg_epc (r : Fin 8) (v : Byte) : (s.setReg r v).epc = s.epc := rfl
@[simp] theorem State.setReg_einfo (r : Fin 8) (v : Byte) : (s.setReg r v).einfo = s.einfo := rfl
@[simp] theorem State.setReg_out (r : Fin 8) (v : Byte) : (s.setReg r v).out = s.out := rfl
@[simp] theorem State.setReg_mem (r : Fin 8) (v : Byte) : (s.setReg r v).mem = s.mem := rfl
@[simp] theorem State.setReg_inputs (r : Fin 8) (v : Byte) : (s.setReg r v).inputs = s.inputs := rfl
@[simp] theorem State.setReg_memRead (r : Fin 8) (v : Byte) (c : Byte) : (s.setReg r v).memRead c = s.memRead c := rfl

/-! ## setPc -/

@[simp] theorem State.setPc_pc (t : Byte) : (s.setPc t).pc = t := rfl
@[simp] theorem State.setPc_fl (t : Byte) : (s.setPc t).fl = s.fl := rfl
@[simp] theorem State.setPc_ie (t : Byte) : (s.setPc t).ie = s.ie := rfl
@[simp] theorem State.setPc_run (t : Byte) : (s.setPc t).run = s.run := rfl
@[simp] theorem State.setPc_cause (t : Byte) : (s.setPc t).cause = s.cause := rfl
@[simp] theorem State.setPc_epc (t : Byte) : (s.setPc t).epc = s.epc := rfl
@[simp] theorem State.setPc_einfo (t : Byte) : (s.setPc t).einfo = s.einfo := rfl
@[simp] theorem State.setPc_out (t : Byte) : (s.setPc t).out = s.out := rfl
@[simp] theorem State.setPc_mem (t : Byte) : (s.setPc t).mem = s.mem := rfl
@[simp] theorem State.setPc_inputs (t : Byte) : (s.setPc t).inputs = s.inputs := rfl
@[simp] theorem State.setPc_reg (t : Byte) (q : Fin 8) : (s.setPc t).reg q = s.reg q := rfl
@[simp] theorem State.setPc_memRead (t : Byte) (c : Byte) : (s.setPc t).memRead c = s.memRead c := rfl

/-! ## setFl -/

@[simp] theorem State.setFl_pc (v : FlagBits) : (s.setFl v).pc = s.pc := rfl
@[simp] theorem State.setFl_fl (v : FlagBits) : (s.setFl v).fl = v := rfl
@[simp] theorem State.setFl_ie (v : FlagBits) : (s.setFl v).ie = s.ie := rfl
@[simp] theorem State.setFl_run (v : FlagBits) : (s.setFl v).run = s.run := rfl
@[simp] theorem State.setFl_cause (v : FlagBits) : (s.setFl v).cause = s.cause := rfl
@[simp] theorem State.setFl_epc (v : FlagBits) : (s.setFl v).epc = s.epc := rfl
@[simp] theorem State.setFl_einfo (v : FlagBits) : (s.setFl v).einfo = s.einfo := rfl
@[simp] theorem State.setFl_out (v : FlagBits) : (s.setFl v).out = s.out := rfl
@[simp] theorem State.setFl_mem (v : FlagBits) : (s.setFl v).mem = s.mem := rfl
@[simp] theorem State.setFl_inputs (v : FlagBits) : (s.setFl v).inputs = s.inputs := rfl
@[simp] theorem State.setFl_reg (v : FlagBits) (q : Fin 8) : (s.setFl v).reg q = s.reg q := rfl
@[simp] theorem State.setFl_memRead (v : FlagBits) (c : Byte) : (s.setFl v).memRead c = s.memRead c := rfl

/-! ## setIe -/

@[simp] theorem State.setIe_pc (b : Bool) : (s.setIe b).pc = s.pc := rfl
@[simp] theorem State.setIe_fl (b : Bool) : (s.setIe b).fl = s.fl := rfl
@[simp] theorem State.setIe_ie (b : Bool) : (s.setIe b).ie = b := rfl
@[simp] theorem State.setIe_run (b : Bool) : (s.setIe b).run = s.run := rfl
@[simp] theorem State.setIe_cause (b : Bool) : (s.setIe b).cause = s.cause := rfl
@[simp] theorem State.setIe_epc (b : Bool) : (s.setIe b).epc = s.epc := rfl
@[simp] theorem State.setIe_einfo (b : Bool) : (s.setIe b).einfo = s.einfo := rfl
@[simp] theorem State.setIe_out (b : Bool) : (s.setIe b).out = s.out := rfl
@[simp] theorem State.setIe_mem (b : Bool) : (s.setIe b).mem = s.mem := rfl
@[simp] theorem State.setIe_inputs (b : Bool) : (s.setIe b).inputs = s.inputs := rfl
@[simp] theorem State.setIe_reg (b : Bool) (q : Fin 8) : (s.setIe b).reg q = s.reg q := rfl
@[simp] theorem State.setIe_memRead (b : Bool) (c : Byte) : (s.setIe b).memRead c = s.memRead c := rfl

/-! ## memWrite -/

@[simp] theorem State.memWrite_pc (a v : Byte) : (s.memWrite a v).pc = s.pc := rfl
@[simp] theorem State.memWrite_fl (a v : Byte) : (s.memWrite a v).fl = s.fl := rfl
@[simp] theorem State.memWrite_ie (a v : Byte) : (s.memWrite a v).ie = s.ie := rfl
@[simp] theorem State.memWrite_run (a v : Byte) : (s.memWrite a v).run = s.run := rfl
@[simp] theorem State.memWrite_cause (a v : Byte) : (s.memWrite a v).cause = s.cause := rfl
@[simp] theorem State.memWrite_epc (a v : Byte) : (s.memWrite a v).epc = s.epc := rfl
@[simp] theorem State.memWrite_einfo (a v : Byte) : (s.memWrite a v).einfo = s.einfo := rfl
@[simp] theorem State.memWrite_out (a v : Byte) : (s.memWrite a v).out = s.out := rfl
@[simp] theorem State.memWrite_mem (a v : Byte) : (s.memWrite a v).mem = s.mem.write a v := rfl
@[simp] theorem State.memWrite_inputs (a v : Byte) : (s.memWrite a v).inputs = s.inputs := rfl
@[simp] theorem State.memWrite_reg (a v : Byte) (q : Fin 8) : (s.memWrite a v).reg q = s.reg q := rfl

/-! ## emit -/

@[simp] theorem State.emit_pc (v : Byte) : (s.emit v).pc = s.pc := rfl
@[simp] theorem State.emit_fl (v : Byte) : (s.emit v).fl = s.fl := rfl
@[simp] theorem State.emit_ie (v : Byte) : (s.emit v).ie = s.ie := rfl
@[simp] theorem State.emit_run (v : Byte) : (s.emit v).run = s.run := rfl
@[simp] theorem State.emit_cause (v : Byte) : (s.emit v).cause = s.cause := rfl
@[simp] theorem State.emit_epc (v : Byte) : (s.emit v).epc = s.epc := rfl
@[simp] theorem State.emit_einfo (v : Byte) : (s.emit v).einfo = s.einfo := rfl
@[simp] theorem State.emit_out (v : Byte) : (s.emit v).out = s.out ++ [v] := rfl
@[simp] theorem State.emit_mem (v : Byte) : (s.emit v).mem = s.mem := rfl
@[simp] theorem State.emit_inputs (v : Byte) : (s.emit v).inputs = s.inputs := rfl
@[simp] theorem State.emit_reg (v : Byte) (q : Fin 8) : (s.emit v).reg q = s.reg q := rfl
@[simp] theorem State.emit_memRead (v : Byte) (c : Byte) : (s.emit v).memRead c = s.memRead c := rfl

/-! ## stop -/

@[simp] theorem State.stop_pc (e : Stop) : (s.stop e).pc = s.pc := rfl
@[simp] theorem State.stop_fl (e : Stop) : (s.stop e).fl = s.fl := rfl
@[simp] theorem State.stop_ie (e : Stop) : (s.stop e).ie = s.ie := rfl
@[simp] theorem State.stop_run (e : Stop) : (s.stop e).run = e.run := rfl
@[simp] theorem State.stop_cause (e : Stop) : (s.stop e).cause = e.cause := rfl
@[simp] theorem State.stop_epc (e : Stop) : (s.stop e).epc = s.pc := rfl
@[simp] theorem State.stop_einfo (e : Stop) : (s.stop e).einfo = e.einfo := rfl
@[simp] theorem State.stop_out (e : Stop) : (s.stop e).out = s.out := rfl
@[simp] theorem State.stop_mem (e : Stop) : (s.stop e).mem = s.mem := rfl
@[simp] theorem State.stop_inputs (e : Stop) : (s.stop e).inputs = s.inputs := rfl
@[simp] theorem State.stop_reg (e : Stop) (q : Fin 8) : (s.stop e).reg q = s.reg q := rfl
@[simp] theorem State.stop_memRead (e : Stop) (c : Byte) : (s.stop e).memRead c = s.memRead c := rfl

/-! ## takeInput -/

@[simp] theorem State.takeInput_pc : (s.takeInput).pc = s.pc := rfl
@[simp] theorem State.takeInput_fl : (s.takeInput).fl = s.fl := rfl
@[simp] theorem State.takeInput_ie : (s.takeInput).ie = s.ie := rfl
@[simp] theorem State.takeInput_run : (s.takeInput).run = s.run := rfl
@[simp] theorem State.takeInput_cause : (s.takeInput).cause = s.cause := rfl
@[simp] theorem State.takeInput_epc : (s.takeInput).epc = s.epc := rfl
@[simp] theorem State.takeInput_einfo : (s.takeInput).einfo = s.einfo := rfl
@[simp] theorem State.takeInput_out : (s.takeInput).out = s.out := rfl
@[simp] theorem State.takeInput_mem : (s.takeInput).mem = s.mem := rfl
@[simp] theorem State.takeInput_inputs : (s.takeInput).inputs = s.inputs.tail := rfl
@[simp] theorem State.takeInput_reg (q : Fin 8) : (s.takeInput).reg q = s.reg q := rfl
@[simp] theorem State.takeInput_memRead (c : Byte) : (s.takeInput).memRead c = s.memRead c := rfl

/-! ## resetCore -/

@[simp] theorem State.resetCore_pc : (s.resetCore).pc = 0x00#8 := rfl
@[simp] theorem State.resetCore_fl : (s.resetCore).fl = 0b000#3 := rfl
@[simp] theorem State.resetCore_ie : (s.resetCore).ie = true := rfl
@[simp] theorem State.resetCore_run : (s.resetCore).run = .running := rfl
@[simp] theorem State.resetCore_cause : (s.resetCore).cause = .none := rfl
@[simp] theorem State.resetCore_epc : (s.resetCore).epc = 0x00#8 := rfl
@[simp] theorem State.resetCore_einfo : (s.resetCore).einfo = 0x00#8 := rfl
@[simp] theorem State.resetCore_out : (s.resetCore).out = [] := rfl
@[simp] theorem State.resetCore_mem : (s.resetCore).mem = s.mem := rfl
@[simp] theorem State.resetCore_inputs : (s.resetCore).inputs = s.inputs := rfl
@[simp] theorem State.resetCore_memRead (c : Byte) : (s.resetCore).memRead c = s.memRead c := rfl

/-- After `rst` the registers are those of the reset state (R38, R220). -/
@[simp] theorem State.resetCore_reg (q : Fin 8) : s.resetCore.reg q = State.reset.reg q := rfl

end Sys2Proof.Machine
end

