-- ==== Sys2Proof/Laws/Ops.lean ====
section
/-! SUPPORT. One law per shared operation, saying everything it can do, so that no later proof unfolds it. -/

namespace Sys2Proof.Machine

variable (s : State)

/-! ## Phases -/

@[simp] theorem State.commit_ok (t : State) : s.commit (.ok t) = t := rfl
@[simp] theorem State.commit_error (e : Stop) : s.commit (.error e) = s.stop e := rfl

/-- A completed sequence has a completed first part. -/
theorem bind_eq_ok {α β : Type} {x : Except Stop α} {f : α → Except Stop β} {b : β} :
    (x >>= f) = .ok b ↔ ∃ a, x = .ok a ∧ f a = .ok b := by
  cases x <;> simp [bind, Except.bind]

/-- A stopped sequence stops in its first part or in the rest. -/
theorem bind_eq_error {α β : Type} {x : Except Stop α} {f : α → Except Stop β} {e : Stop} :
    (x >>= f) = .error e ↔ x = .error e ∨ ∃ a, x = .ok a ∧ f a = .error e := by
  cases x <;> simp [bind, Except.bind]

@[simp] theorem ok_bind {α β : Type} (a : α) (f : α → Except Stop β) : (Except.ok a >>= f) = f a := rfl
@[simp] theorem error_bind {α β : Type} (e : Stop) (f : α → Except Stop β) :
    ((Except.error e : Except Stop α) >>= f) = .error e := rfl

/-! ## Operands -/

@[simp] theorem regByte_toNat (r : Fin 8) : (regByte r).toNat = r.val := by
  simp [regByte, BitVec.toNat_ofNat]; omega

@[simp] theorem registerOperand_regByte (r : Fin 8) : registerOperand (regByte r) = .ok r := by
  simp [registerOperand]

theorem registerOperand_bad {a : Byte} (h : 7 < a.toNat) : registerOperand a = .error (raise .registerIndex a) := by
  simp [registerOperand]; omega

/-- An operand byte names a register or raises RegisterIndex (40 R108). -/
theorem registerOperand_cases (a : Byte) :
    (∃ r : Fin 8, a = regByte r ∧ registerOperand a = .ok r) ∨
      (7 < a.toNat ∧ registerOperand a = .error (raise .registerIndex a)) := by
  by_cases h : a.toNat < 8
  · refine .inl ⟨⟨a.toNat, h⟩, BitVec.eq_of_toNat_eq (by simp), ?_⟩
    simp [registerOperand, h]
  · exact .inr ⟨by omega, registerOperand_bad (by omega)⟩

/-! ## The advance (40 R109) -/

theorem advance_of_le {n : Nat} (h : s.pc.toNat + n ≤ 255) :
    advance n s = .ok (s.setPc (s.pc + BitVec.ofNat 8 n)) := by
  simp [advance]; omega

theorem advance_of_gt {n : Nat} (h : 255 < s.pc.toNat + n) :
    advance n s = .error (raise .pcBound (BitVec.ofNat 8 n)) := by
  simp [advance, h]

/-- An advance either fits, and adds the length without wrapping, or raises PcBound. -/
theorem advance_cases (n : Nat) :
    (s.pc.toNat + n ≤ 255 ∧ advance n s = .ok (s.setPc (s.pc + BitVec.ofNat 8 n)) ∧
        (s.pc + BitVec.ofNat 8 n).toNat = s.pc.toNat + n) ∨
      (255 < s.pc.toNat + n ∧ advance n s = .error (raise .pcBound (BitVec.ofNat 8 n))) := by
  by_cases h : s.pc.toNat + n ≤ 255
  · refine .inl ⟨h, advance_of_le s h, ?_⟩
    simp [BitVec.toNat_add]; omega
  · exact .inr ⟨by omega, advance_of_gt s (by omega)⟩

/-! ## The stack (20 R57) -/

theorem predecrement_eq :
    predecrement s = if s.reg 7 = 0x00#8 then .error (raise .stackBound 0x00#8)
      else .ok (s.setReg 7 (s.reg 7 - 1#8)) := rfl

theorem postincrement_eq :
    postincrement s = if s.reg 7 = 0xFF#8 then .error (raise .stackBound 0xFF#8)
      else .ok (s.setReg 7 (s.reg 7 + 1#8)) := rfl

theorem push_eq (v : Byte) :
    push v s = if s.reg 7 = 0x00#8 then .error (raise .stackBound 0x00#8)
      else .ok ((s.setReg 7 (s.reg 7 - 1#8)).memWrite (s.reg 7 - 1#8) v) := by
  unfold push
  rw [predecrement_eq]
  split <;> simp [State.sp_eq]

theorem pop_eq :
    pop s = if s.reg 7 = 0xFF#8 then .error (raise .stackBound 0xFF#8)
      else .ok (s.memRead (s.reg 7), s.setReg 7 (s.reg 7 + 1#8)) := by
  unfold pop
  rw [postincrement_eq]
  split <;> simp [State.sp_eq]

/-- What a completed push sequence leaves alone: all but `x[7]` and memory. -/
structure SameButStack (s t : State) : Prop where
  reg : ∀ r : Fin 8, r ≠ 7 → t.reg r = s.reg r
  pc : t.pc = s.pc
  fl : t.fl = s.fl
  ie : t.ie = s.ie
  run : t.run = s.run
  cause : t.cause = s.cause
  epc : t.epc = s.epc
  einfo : t.einfo = s.einfo
  out : t.out = s.out
  inputs : t.inputs = s.inputs

theorem toNat_sub_one {p : Byte} (h : p ≠ 0x00#8) : (p - 1#8).toNat + 1 = p.toNat := by
  have : p.toNat ≠ 0 := fun hz => h (BitVec.eq_of_toNat_eq hz)
  have := p.isLt
  simp [BitVec.toNat_sub]; omega

/-- What a completed push sequence does to the pointer and to memory: each byte stands one cell below the one before,
every other cell is as before, and memory keeps its canonical form (R57). -/
structure Pushed (vs : List Byte) (s t : State) : Prop where
  sp : (t.reg 7).toNat + vs.length = (s.reg 7).toNat
  cell : ∀ (a : Byte) (k : Nat) (h : k < vs.length), a.toNat + k + 1 = (s.reg 7).toNat → t.memRead a = vs[k]
  other : ∀ a : Byte, a.toNat < (t.reg 7).toNat ∨ (s.reg 7).toNat ≤ a.toNat → t.memRead a = s.memRead a
  wf : s.mem.wf = true → t.mem.wf = true

/-- The sequence of pushes completes exactly when the pointer has room for it (R57). -/
theorem pushAll_of_le (vs : List Byte) (h : vs.length ≤ (s.reg 7).toNat) :
    ∃ t, pushAll vs s = .ok t ∧ SameButStack s t ∧ Pushed vs s t := by
  induction vs generalizing s with
  | nil =>
    exact ⟨s, rfl, ⟨fun _ _ => rfl, rfl, rfl, rfl, rfl, rfl, rfl, rfl, rfl, rfl⟩,
      ⟨rfl, fun _ _ h => absurd h (by simp), fun _ _ => rfl, id⟩⟩
  | cons v rest ih =>
    simp only [List.length_cons] at h
    have h0 : s.reg 7 ≠ 0x00#8 := fun h0 => by simp [h0] at h
    have h1 := toNat_sub_one h0
    obtain ⟨t, ht, hk, hp⟩ := ih ((s.setReg 7 (s.reg 7 - 1#8)).memWrite (s.reg 7 - 1#8) v) (by simp; omega)
    have hsp := hp.sp
    simp only [State.memWrite_reg, State.reg_setReg_self] at hsp
    have hread : ∀ a : Byte, ((s.setReg 7 (s.reg 7 - 1#8)).memWrite (s.reg 7 - 1#8) v).memRead a =
        if a = s.reg 7 - 1#8 then v else s.memRead a := fun a => Memory.read_write _ _ _ _
    refine ⟨t, by simp [pushAll, push_eq, h0, ht], ?_, ?_⟩
    · exact ⟨fun r hr => by simp [hk.reg r hr, hr], hk.pc, hk.fl, hk.ie, hk.run, hk.cause, hk.epc, hk.einfo, hk.out,
        hk.inputs⟩
    · refine ⟨by simp; omega, fun a k hkl ha => ?_, fun a ha => ?_, fun hm => hp.wf (Memory.write_wf _ _ hm)⟩
      · cases k with
        | zero =>
          have : a = s.reg 7 - 1#8 := BitVec.eq_of_toNat_eq (by omega)
          rw [hp.other a (.inr (by simp; omega)), hread, if_pos this]
          rfl
        | succ k => exact hp.cell a k (by simpa using hkl) (by simp; omega)
      · rw [hp.other a (by simp; omega), hread, if_neg]
        rintro rfl
        omega

theorem pushAll_of_gt (vs : List Byte) (h : (s.reg 7).toNat < vs.length) :
    pushAll vs s = .error (raise .stackBound 0x00#8) := by
  induction vs generalizing s with
  | nil => simp at h
  | cons v rest ih =>
    simp only [List.length_cons] at h
    by_cases h0 : s.reg 7 = 0x00#8
    · simp [pushAll, push_eq, h0]
    · have h1 := toNat_sub_one h0
      simp only [pushAll, push_eq, h0, if_false, ok_bind]
      exact ih _ (by simp; omega)

/-- Pops leave all but the registers alone. -/
structure SameButRegisters (s t : State) : Prop where
  pc : t.pc = s.pc
  fl : t.fl = s.fl
  ie : t.ie = s.ie
  run : t.run = s.run
  cause : t.cause = s.cause
  epc : t.epc = s.epc
  einfo : t.einfo = s.einfo
  out : t.out = s.out
  mem : t.mem = s.mem
  inputs : t.inputs = s.inputs

theorem popRegs_ok {rs : List (Fin 8)} {t : State} (h : popRegs rs s = .ok t) : SameButRegisters s t := by
  induction rs generalizing s with
  | nil => cases h; exact ⟨rfl, rfl, rfl, rfl, rfl, rfl, rfl, rfl, rfl, rfl⟩
  | cons r rest ih =>
    simp only [popRegs, pop_eq] at h
    split at h
    · cases h
    · have := ih _ h
      exact ⟨this.pc, this.fl, this.ie, this.run, this.cause, this.epc, this.einfo, this.out, this.mem, this.inputs⟩

theorem toNat_add_one {p : Byte} (h : p ≠ 0xFF#8) : (p + 1#8).toNat = p.toNat + 1 := by
  have : p.toNat ≠ 255 := fun e => h (BitVec.eq_of_toNat_eq e)
  have := p.isLt
  simp [BitVec.toNat_add]; omega

/-- A pop moves the pointer up by one. -/
theorem pop_sp {t : State} {v : Byte} (h : pop s = .ok (v, t)) : (t.reg 7).toNat = (s.reg 7).toNat + 1 := by
  rw [pop_eq] at h
  split at h
  · cases h
  · cases h
    simpa using toNat_add_one ‹_›

/-- A pop stops only with StackBound. -/
theorem pop_error {e : Stop} (h : pop s = .error e) : e = raise .stackBound 0xFF#8 := by
  rw [pop_eq] at h
  split at h <;> cases h
  rfl

theorem popRegs_sp {rs : List (Fin 8)} {t : State} (hrs : ∀ r ∈ rs, r ≠ 7) (h : popRegs rs s = .ok t) :
    (t.reg 7).toNat = (s.reg 7).toNat + rs.length := by
  induction rs generalizing s with
  | nil => cases h; rfl
  | cons r rest ih =>
    obtain ⟨⟨v, q⟩, hq, h⟩ := bind_eq_ok.mp h
    have := ih _ (fun r h => hrs r (List.mem_cons_of_mem _ h)) h
    rw [State.reg_setReg_of_ne _ _ _ _ (Ne.symm (hrs r List.mem_cons_self)), pop_sp s hq] at this
    simp; omega

/-- A pop sequence stops only with StackBound (R57). -/
theorem popRegs_error {rs : List (Fin 8)} {e : Stop} (h : popRegs rs s = .error e) :
    e = raise .stackBound 0xFF#8 := by
  induction rs generalizing s with
  | nil => cases h
  | cons r rest ih =>
    obtain h | ⟨⟨v, q⟩, -, h⟩ := bind_eq_error.mp h
    · exact pop_error s h
    · exact ih _ h

/-- Popping into different registers, none of them the pointer, completes when the pointer has room (R57): each register
holds the byte its place in the sequence is above the old pointer, and the other registers are as before. -/
theorem popRegs_of_le (rs : List (Fin 8)) (hrs : ∀ r ∈ rs, r ≠ 7) (hd : rs.Nodup)
    (h : (s.reg 7).toNat + rs.length ≤ 255) :
    ∃ t, popRegs rs s = .ok t ∧ t.reg 7 = s.reg 7 + BitVec.ofNat 8 rs.length ∧
      (∀ (k : Nat) (hk : k < rs.length), t.reg rs[k] = s.memRead (s.reg 7 + BitVec.ofNat 8 k)) ∧
      ∀ q : Fin 8, q ∉ rs → q ≠ 7 → t.reg q = s.reg q := by
  induction rs generalizing s with
  | nil => exact ⟨s, rfl, by simp, fun k hk => absurd hk (by simp), fun _ _ _ => rfl⟩
  | cons r rest ih =>
    have hr : r ≠ 7 := hrs r List.mem_cons_self
    have hmem := List.nodup_cons.mp hd
    simp only [List.length_cons] at h
    have h0 : s.reg 7 ≠ 0xFF#8 := by
      intro h0; simp [h0] at h
    have h1 := toNat_add_one h0
    have hnext (k : Nat) : s.reg 7 + 1#8 + BitVec.ofNat 8 k = s.reg 7 + BitVec.ofNat 8 (k + 1) := by
      apply BitVec.eq_of_toNat_eq
      simp [BitVec.toNat_add]; omega
    obtain ⟨t, ht, hsp, hcell, hother⟩ := ih ((s.setReg 7 (s.reg 7 + 1#8)).setReg r (s.memRead (s.reg 7)))
      (fun q hq => hrs q (List.mem_cons_of_mem _ hq)) hmem.2
      (by rw [State.reg_setReg_of_ne _ _ _ _ hr.symm, State.reg_setReg_self, h1]; omega)
    rw [State.reg_setReg_of_ne _ _ _ _ hr.symm, State.reg_setReg_self] at hsp hcell
    refine ⟨t, by simp [popRegs, pop_eq, h0, ht], by rw [hsp, hnext]; rfl, fun k hk => ?_, fun q hq hq7 => ?_⟩
    · cases k with
      | zero => simpa using hother r hmem.1 hr
      | succ k =>
        have := hcell k (by simpa using hk)
        rw [hnext] at this
        simpa using this
    · have := hother q (fun hm => hq (List.mem_cons_of_mem _ hm)) hq7
      have hqr : q ≠ r := fun e => hq (by simp [e])
      rw [this, State.reg_setReg_of_ne _ _ _ _ hqr, State.reg_setReg_of_ne _ _ _ _ hq7]

/-! ## Interrupts -/

/-- The state whose frame is pushed: `IE` and the pending register are clear already (60 R196). -/
theorem interruptEntry_eq (n : Fin 8) :
    interruptEntry n s =
      (pushAll ((s.setIe false).setReg 6 0x00#8).frame ((s.setIe false).setReg 6 0x00#8) >>= fun t =>
        .ok (t.setPc (t.memRead (vectorAddress n)))) := rfl

theorem interruptEntry_of_lt (n : Fin 8) (h : (s.reg 7).toNat < 9) :
    interruptEntry n s = .error (raise .stackBound 0x00#8) := by
  rw [interruptEntry_eq, pushAll_of_gt _ _ (by simpa [State.frame] using h)]
  rfl

/-- What a completed interrupt entry leaves alone (60 R196), and what it leaves in `IE`, `x[6]`, `x[7]` and `pc`. -/
structure Entered (n : Fin 8) (s t : State) : Prop where
  reg : ∀ r : Fin 8, r ≠ 6 → r ≠ 7 → t.reg r = s.reg r
  pending : t.reg 6 = 0x00#8
  sp : (t.reg 7).toNat + 9 = (s.reg 7).toNat
  pc : t.pc = t.memRead (vectorAddress n)
  fl : t.fl = s.fl
  ie : t.ie = false
  run : t.run = s.run
  cause : t.cause = s.cause
  epc : t.epc = s.epc
  einfo : t.einfo = s.einfo
  out : t.out = s.out
  inputs : t.inputs = s.inputs
  wf : s.mem.wf = true → t.mem.wf = true

theorem interruptEntry_ok {n : Fin 8} {t : State} (h : interruptEntry n s = .ok t) : Entered n s t := by
  by_cases hs : (s.reg 7).toNat < 9
  · rw [interruptEntry_of_lt s n hs] at h; cases h
  · obtain ⟨u, hu, hk, hp⟩ := pushAll_of_le ((s.setIe false).setReg 6 0x00#8)
      (((s.setIe false).setReg 6 0x00#8).frame) (by simp [State.frame]; omega)
    rw [interruptEntry_eq, hu] at h
    cases h
    exact ⟨fun r h6 h7 => by simp [hk.reg r h7, h6], by simp [hk.reg 6 (by decide)],
      by simpa [State.frame] using hp.sp, rfl, hk.fl, hk.ie, hk.run, hk.cause, hk.epc, hk.einfo, hk.out, hk.inputs,
      hp.wf⟩

/-- A completed return sets `IE` and writes registers, `FL` and `pc` only (45 R170). -/
theorem interruptReturn_ok {t : State} (h : interruptReturn s = .ok t) :
    t.ie = true ∧ t.run = s.run ∧ t.cause = s.cause ∧ t.epc = s.epc ∧ t.einfo = s.einfo ∧ t.out = s.out ∧
      t.mem = s.mem ∧ t.inputs = s.inputs := by
  unfold interruptReturn at h
  obtain ⟨u, hu, h⟩ := bind_eq_ok.mp h
  have k := popRegs_ok s hu
  obtain ⟨⟨f, v⟩, hv, h⟩ := bind_eq_ok.mp h
  obtain ⟨⟨p, w⟩, hw, h⟩ := bind_eq_ok.mp h
  rw [pop_eq] at hv hw
  split at hv
  · cases hv
  split at hw
  · cases hw
  cases hv; cases hw; cases h
  exact ⟨rfl, k.run, k.cause, k.epc, k.einfo, k.out, k.mem, k.inputs⟩

end Sys2Proof.Machine
end

