-- ==== Sys2Proof/Laws/Exec.lean ====
section
/-! SUPPORT. What the meaning of an instruction can do, said once: it completes, or it stops keeping nothing. Later
proofs about "for every instruction" cite `exec_cases` and unfold no meaning. -/

namespace Sys2Proof.Machine

/-- What holds of every completed instruction, whichever it is. -/
structure Completed (i : Instr) (s t : State) : Prop where
  run : t.run = s.run
  cause : t.cause = s.cause
  epc : t.epc = s.epc
  einfo : t.einfo = s.einfo
  inputs : t.inputs = s.inputs
  notHalt : i ≠ .hlt
  ie : i ≠ .iret → t.ie = s.ie
  fl : i ≠ .iret → i.opcode ≠ .cmp → t.fl = s.fl
  out : i.opcode ≠ .prn → t.out = s.out
  prn : ∀ a, i = .prn a → ∃ r, a = regByte r ∧ t.out = s.out ++ [s.reg r]
  mem : i.opcode ≠ .push → i.opcode ≠ .call → t.mem = s.mem
  cell : ∀ c, c ≠ s.reg 7 - 1#8 → t.memRead c = s.memRead c
  wf : s.mem.wf = true → t.mem.wf = true
  pc : setsPc i.opcode.byte = false → t.pc.toNat = s.pc.toNat + i.operands.length + 1

/-- The ways an instruction's meaning stops the machine (60 R181 to R187). -/
inductive StopOf (i : Instr) (s : State) : Stop → Prop where
  | hlt : i = .hlt → StopOf i s (halt .haltInstruction)
  | divideByZero (a b : Fin 8) : i = .mod (regByte a) (regByte b) → s.reg b = 0x00#8 → StopOf i s (halt .divideByZero)
  | registerIndex (r : Byte) : r ∈ i.operands → 7 < r.toNat → StopOf i s (raise .registerIndex r)
  | pcBound (n : Nat) : 1 ≤ n → n ≤ 3 → 255 < s.pc.toNat + n → i ≠ .hlt →
      (∀ a b : Fin 8, i = .mod (regByte a) (regByte b) → s.reg b ≠ 0x00#8) →
      StopOf i s (raise .pcBound (BitVec.ofNat 8 n))
  | stackBound (p : Byte) : p = 0x00#8 ∨ p = 0xFF#8 →
      (i = .ret ∨ i = .iret ∨ ∃ a : Fin 8, i = .push (regByte a) ∨ i = .pop (regByte a) ∨ i = .call (regByte a)) →
      StopOf i s (raise .stackBound p)

/-- Everything the meaning of an instruction can answer. -/
def ExecCases (i : Instr) (s : State) : Prop :=
  (∃ t, exec i s = .next t ∧ Completed i s t) ∨ (∃ e, exec i s = .next (s.stop e) ∧ StopOf i s e)

theorem regByte_injective {q r : Fin 8} (h : regByte q = regByte r) : q = r := by
  have := congrArg BitVec.toNat h
  simp only [regByte_toNat] at this
  omega

/-! ## The shared shapes -/

/-- The state after an instruction that writes a register and advances is a completed one, if the instruction is none of
the special ones. -/
theorem Completed.of_setReg {i : Instr} (s : State) (r : Fin 8) (v : Byte) {n : Nat} (hn : i.operands.length + 1 = n)
    (hi : i ≠ .hlt ∧ i ≠ .iret ∧ ∀ a, i ≠ .prn a) (hpc : (s.pc + BitVec.ofNat 8 n).toNat = s.pc.toNat + n) :
    Completed i s ((s.setReg r v).setPc (s.pc + BitVec.ofNat 8 n)) where
  run := rfl
  cause := rfl
  epc := rfl
  einfo := rfl
  inputs := rfl
  notHalt := hi.1
  ie _ := rfl
  fl _ _ := rfl
  out _ := rfl
  prn a h := absurd h (hi.2.2 a)
  mem _ _ := rfl
  cell _ _ := rfl
  wf := id
  pc _ := by simp only [State.setPc_pc, hpc]; omega

/-- Format RR of the ALU completes or stops (41 R120). -/
theorem twoRegisters_cases (f : Byte → Byte → Byte) (a b : Byte) (s : State) {i : Instr}
    (he : exec i s = twoRegisters f a b s) (hops : i.operands = [a, b])
    (hi : i ≠ .hlt ∧ i ≠ .iret ∧ (∀ a, i ≠ .prn a) ∧ ∀ a b, i ≠ .mod a b) : ExecCases i s := by
  unfold ExecCases
  rw [he]
  unfold twoRegisters
  obtain ⟨ra, rfl, ha⟩ | ⟨hbad, ha⟩ := registerOperand_cases a
  · obtain ⟨rb, rfl, hb⟩ | ⟨hbad, hb⟩ := registerOperand_cases b
    · obtain ⟨hle, hadv, hpc⟩ | ⟨hgt, hadv⟩ := advance_cases (s.setReg ra (f (s.reg ra) (s.reg rb))) 3
      · refine .inl ⟨_, by rw [ha, hb]; simp only [ok_bind]; rw [hadv]; rfl, ?_⟩
        exact Completed.of_setReg s ra _ (by simp [hops]) ⟨hi.1, hi.2.1, hi.2.2.1⟩ hpc
      · refine .inr ⟨_, by rw [ha, hb]; simp only [ok_bind]; rw [hadv]; rfl, ?_⟩
        exact .pcBound 3 (by omega) (by omega) hgt hi.1 fun a b h => absurd h (hi.2.2.2 _ _)
    · exact .inr ⟨_, by rw [ha, hb]; rfl, .registerIndex b (by simp [hops]) hbad⟩
  · exact .inr ⟨_, by rw [ha]; rfl, .registerIndex a (by simp [hops]) hbad⟩

/-- Format RI completes or stops. -/
theorem registerLiteral_cases (f : Byte → Byte → Byte) (a b : Byte) (s : State) {i : Instr}
    (he : exec i s = registerLiteral f a b s) (hops : i.operands = [a, b])
    (hi : i ≠ .hlt ∧ i ≠ .iret ∧ (∀ a, i ≠ .prn a) ∧ ∀ a b, i ≠ .mod a b) : ExecCases i s := by
  unfold ExecCases
  rw [he]
  unfold registerLiteral
  obtain ⟨ra, rfl, ha⟩ | ⟨hbad, ha⟩ := registerOperand_cases a
  · obtain ⟨hle, hadv, hpc⟩ | ⟨hgt, hadv⟩ := advance_cases (s.setReg ra (f (s.reg ra) b)) 3
    · refine .inl ⟨_, by rw [ha]; simp only [ok_bind]; rw [hadv]; rfl, ?_⟩
      exact Completed.of_setReg s ra _ (by simp [hops]) ⟨hi.1, hi.2.1, hi.2.2.1⟩ hpc
    · refine .inr ⟨_, by rw [ha]; simp only [ok_bind]; rw [hadv]; rfl, ?_⟩
      exact .pcBound 3 (by omega) (by omega) hgt hi.1 fun a b h => absurd h (hi.2.2.2 _ _)
  · exact .inr ⟨_, by rw [ha]; rfl, .registerIndex a (by simp [hops]) hbad⟩

/-- A jump completes, taken or not, or stops (44). -/
theorem jumpIf_cases (taken : Bool) (a : Byte) (s : State) {i : Instr}
    (he : exec i s = jumpIf taken a s) (hops : i.operands = [a]) (hset : setsPc i.opcode.byte = true)
    (hi : i ≠ .hlt ∧ i ≠ .iret ∧ (∀ a, i ≠ .prn a) ∧ ∀ a b, i ≠ .mod a b) : ExecCases i s := by
  have done (p : Byte) : Completed i s (s.setPc p) :=
    ⟨rfl, rfl, rfl, rfl, rfl, hi.1, fun _ => rfl, fun _ _ => rfl, fun _ => rfl, fun a h => absurd h (hi.2.2.1 a),
      fun _ _ => rfl, fun _ _ => rfl, id, fun h => by simp [hset] at h⟩
  unfold ExecCases
  rw [he]
  unfold jumpIf
  obtain ⟨ra, rfl, ha⟩ | ⟨hbad, ha⟩ := registerOperand_cases a
  · cases taken
    · obtain ⟨hle, hadv, hpc⟩ | ⟨hgt, hadv⟩ := advance_cases s 2
      · exact .inl ⟨_, by rw [ha]; simp only [ok_bind, Bool.false_eq_true, if_false]; rw [hadv]; rfl, done _⟩
      · refine .inr ⟨_, by rw [ha]; simp only [ok_bind, Bool.false_eq_true, if_false]; rw [hadv]; rfl, ?_⟩
        exact .pcBound 2 (by omega) (by omega) hgt hi.1 fun a b h => absurd h (hi.2.2.2 _ _)
    · exact .inl ⟨_, by rw [ha]; rfl, done _⟩
  · exact .inr ⟨_, by rw [ha]; rfl, .registerIndex a (by simp [hops]) hbad⟩

/-! ## The other instructions -/

theorem execNot_cases (a : Byte) (s : State) : ExecCases (.not a) s := by
  unfold ExecCases
  change (∃ t, execNot a s = _ ∧ _) ∨ ∃ e, execNot a s = _ ∧ _
  unfold execNot
  obtain ⟨ra, rfl, ha⟩ | ⟨hbad, ha⟩ := registerOperand_cases a
  · obtain ⟨hle, hadv, hpc⟩ | ⟨hgt, hadv⟩ := advance_cases (s.setReg ra (~~~ s.reg ra)) 2
    · refine .inl ⟨_, by rw [ha]; simp only [ok_bind]; rw [hadv]; rfl, ?_⟩
      exact Completed.of_setReg s ra _ rfl (by simp) hpc
    · refine .inr ⟨_, by rw [ha]; simp only [ok_bind]; rw [hadv]; rfl, ?_⟩
      exact .pcBound 2 (by omega) (by omega) hgt (by simp) (by simp)
  · exact .inr ⟨_, by rw [ha]; rfl, .registerIndex a (by simp [Instr.operands]) hbad⟩

theorem execMod_cases (a b : Byte) (s : State) : ExecCases (.mod a b) s := by
  unfold ExecCases
  change (∃ t, execMod a b s = _ ∧ _) ∨ ∃ e, execMod a b s = _ ∧ _
  unfold execMod
  obtain ⟨ra, rfl, ha⟩ | ⟨hbad, ha⟩ := registerOperand_cases a
  · obtain ⟨rb, rfl, hb⟩ | ⟨hbad, hb⟩ := registerOperand_cases b
    · by_cases h0 : s.reg rb = 0x00#8
      · exact .inr ⟨_, by rw [ha, hb]; simp only [ok_bind, h0, if_true]; rfl, .divideByZero ra rb rfl h0⟩
      · obtain ⟨hle, hadv, hpc⟩ | ⟨hgt, hadv⟩ := advance_cases (s.setReg ra (remainder (s.reg ra) (s.reg rb))) 3
        · refine .inl ⟨_, by rw [ha, hb]; simp only [ok_bind, h0, if_false]; rw [hadv]; rfl, ?_⟩
          exact Completed.of_setReg s ra _ rfl (by simp) hpc
        · refine .inr ⟨_, by rw [ha, hb]; simp only [ok_bind, h0, if_false]; rw [hadv]; rfl, ?_⟩
          refine .pcBound 3 (by omega) (by omega) hgt (by simp) fun a b h => ?_
          cases regByte_injective (Instr.mod.inj h).2
          exact h0
    · exact .inr ⟨_, by rw [ha, hb]; rfl, .registerIndex b (by simp [Instr.operands]) hbad⟩
  · exact .inr ⟨_, by rw [ha]; rfl, .registerIndex a (by simp [Instr.operands]) hbad⟩

theorem execCmp_cases (a b : Byte) (s : State) : ExecCases (.cmp a b) s := by
  unfold ExecCases
  change (∃ t, execCmp a b s = _ ∧ _) ∨ ∃ e, execCmp a b s = _ ∧ _
  unfold execCmp
  obtain ⟨ra, rfl, ha⟩ | ⟨hbad, ha⟩ := registerOperand_cases a
  · obtain ⟨rb, rfl, hb⟩ | ⟨hbad, hb⟩ := registerOperand_cases b
    · obtain ⟨hle, hadv, hpc⟩ | ⟨hgt, hadv⟩ := advance_cases (s.setFl (compareFlags (s.reg ra) (s.reg rb))) 3
      · refine .inl ⟨_, by rw [ha, hb]; simp only [ok_bind]; rw [hadv]; rfl, ?_⟩
        exact ⟨rfl, rfl, rfl, rfl, rfl, by simp, fun _ => rfl, fun _ h => absurd rfl h, fun _ => rfl, by simp,
          fun _ _ => rfl, fun _ _ => rfl, id, fun _ => hpc⟩
      · refine .inr ⟨_, by rw [ha, hb]; simp only [ok_bind]; rw [hadv]; rfl, ?_⟩
        exact .pcBound 3 (by omega) (by omega) hgt (by simp) (by simp)
    · exact .inr ⟨_, by rw [ha, hb]; rfl, .registerIndex b (by simp [Instr.operands]) hbad⟩
  · exact .inr ⟨_, by rw [ha]; rfl, .registerIndex a (by simp [Instr.operands]) hbad⟩

theorem execPrn_cases (a : Byte) (s : State) : ExecCases (.prn a) s := by
  unfold ExecCases
  change (∃ t, execPrn a s = _ ∧ _) ∨ ∃ e, execPrn a s = _ ∧ _
  unfold execPrn
  obtain ⟨ra, rfl, ha⟩ | ⟨hbad, ha⟩ := registerOperand_cases a
  · obtain ⟨hle, hadv, hpc⟩ | ⟨hgt, hadv⟩ := advance_cases (s.emit (s.reg ra)) 2
    · refine .inl ⟨_, by rw [ha]; simp only [ok_bind]; rw [hadv]; rfl, ?_⟩
      exact ⟨rfl, rfl, rfl, rfl, rfl, by simp, fun _ => rfl, fun _ _ => rfl, fun h => absurd rfl h,
        fun b hb => ⟨ra, (Instr.prn.inj hb).symm, rfl⟩, fun _ _ => rfl, fun _ _ => rfl, id, fun _ => hpc⟩
    · refine .inr ⟨_, by rw [ha]; simp only [ok_bind]; rw [hadv]; rfl, ?_⟩
      exact .pcBound 2 (by omega) (by omega) hgt (by simp) (by simp)
  · exact .inr ⟨_, by rw [ha]; rfl, .registerIndex a (by simp [Instr.operands]) hbad⟩

/-- What a completed store at the decremented pointer leaves alone. -/
theorem Completed.of_store {i : Instr} (s : State) (v p : Byte)
    (hi : i ≠ .hlt ∧ i ≠ .iret ∧ (∀ a, i ≠ .prn a) ∧ (i.opcode = .push ∨ i.opcode = .call))
    (hpc : setsPc i.opcode.byte = false → p.toNat = s.pc.toNat + i.operands.length + 1) :
    Completed i s (((s.setReg 7 (s.reg 7 - 1#8)).memWrite (s.reg 7 - 1#8) v).setPc p) where
  run := rfl
  cause := rfl
  epc := rfl
  einfo := rfl
  inputs := rfl
  notHalt := hi.1
  ie _ := rfl
  fl _ _ := rfl
  out _ := rfl
  prn a h := absurd h (hi.2.2.1 a)
  mem h h' := (hi.2.2.2.elim h h').elim
  cell _ h := (Memory.read_write _ _ _ _).trans (if_neg h)
  wf := Memory.write_wf _ _
  pc := hpc

theorem execPush_cases (a : Byte) (s : State) : ExecCases (.push a) s := by
  unfold ExecCases
  change (∃ t, execPush a s = _ ∧ _) ∨ ∃ e, execPush a s = _ ∧ _
  unfold execPush
  obtain ⟨ra, rfl, ha⟩ | ⟨hbad, ha⟩ := registerOperand_cases a
  · by_cases h0 : s.reg 7 = 0x00#8
    · exact .inr ⟨_, by rw [ha, predecrement_eq]; simp only [ok_bind, h0, if_true]; rfl,
        .stackBound _ (.inl rfl) (.inr (.inr ⟨ra, .inl rfl⟩))⟩
    · rw [ha, predecrement_eq]
      simp only [ok_bind, h0, if_false, State.sp_eq, State.reg_setReg_self]
      obtain ⟨hle, hadv, hpc⟩ | ⟨hgt, hadv⟩ := advance_cases
        ((s.setReg 7 (s.reg 7 - 1#8)).memWrite (s.reg 7 - 1#8) ((s.setReg 7 (s.reg 7 - 1#8)).reg ra)) 2
      · exact .inl ⟨_, by rw [hadv]; rfl, Completed.of_store s _ _ (by simp [Instr.opcode]) fun _ => hpc⟩
      · exact .inr ⟨_, by rw [hadv]; rfl, .pcBound 2 (by omega) (by omega) hgt (by simp) (by simp)⟩
  · exact .inr ⟨_, by rw [ha]; rfl, .registerIndex a (by simp [Instr.operands]) hbad⟩

theorem execCall_cases (a : Byte) (s : State) : ExecCases (.call a) s := by
  unfold ExecCases
  change (∃ t, execCall a s = _ ∧ _) ∨ ∃ e, execCall a s = _ ∧ _
  unfold execCall
  obtain ⟨ra, rfl, ha⟩ | ⟨hbad, ha⟩ := registerOperand_cases a
  · by_cases hpc : s.pc.toNat + 2 > 255
    · exact .inr ⟨_, by rw [ha]; simp only [ok_bind, hpc, if_true]; rfl,
        .pcBound 2 (by omega) (by omega) hpc (by simp) (by simp)⟩
    · by_cases h0 : s.reg 7 = 0x00#8
      · exact .inr ⟨_, by rw [ha, push_eq]; simp only [ok_bind, hpc, h0, if_true, if_false]; rfl,
          .stackBound _ (.inl rfl) (.inr (.inr ⟨ra, .inr (.inr rfl)⟩))⟩
      · refine .inl ⟨_, by rw [ha, push_eq]; simp only [ok_bind, hpc, h0, if_false]; rfl, ?_⟩
        exact Completed.of_store s _ _ (by simp [Instr.opcode]) fun h =>
          absurd h (by decide : setsPc Opcode.call.byte ≠ false)
  · exact .inr ⟨_, by rw [ha]; rfl, .registerIndex a (by simp [Instr.operands]) hbad⟩

theorem execPop_cases (a : Byte) (s : State) : ExecCases (.pop a) s := by
  unfold ExecCases
  change (∃ t, execPop a s = _ ∧ _) ∨ ∃ e, execPop a s = _ ∧ _
  unfold execPop
  obtain ⟨ra, rfl, ha⟩ | ⟨hbad, ha⟩ := registerOperand_cases a
  · have stack : StopOf (.pop (regByte ra)) s (raise .stackBound 0xFF#8) :=
      .stackBound _ (.inr rfl) (.inr (.inr ⟨ra, .inr (.inl rfl)⟩))
    rw [ha]
    by_cases h0 : s.sp = 0xFF#8
    · exact .inr ⟨_, by simp only [ok_bind, h0, if_true]; rfl, stack⟩
    · simp only [ok_bind, h0, if_false]
      rw [postincrement_eq]
      by_cases h1 : (s.setReg ra (s.memRead s.sp)).reg 7 = 0xFF#8
      · exact .inr ⟨_, by simp only [h1, if_true]; rfl, stack⟩
      · simp only [h1, if_false, ok_bind]
        obtain ⟨hle, hadv, hpc⟩ | ⟨hgt, hadv⟩ := advance_cases ((s.setReg ra (s.memRead s.sp)).setReg 7
          ((s.setReg ra (s.memRead s.sp)).reg 7 + 1#8)) 2
        · refine .inl ⟨_, by rw [hadv]; rfl, ?_⟩
          exact ⟨rfl, rfl, rfl, rfl, rfl, by simp, fun _ => rfl, fun _ _ => rfl, fun _ => rfl, by simp,
            fun _ _ => rfl, fun _ _ => rfl, id, fun _ => hpc⟩
        · exact .inr ⟨_, by rw [hadv]; rfl, .pcBound 2 (by omega) (by omega) hgt (by simp) (by simp)⟩
  · exact .inr ⟨_, by rw [ha]; rfl, .registerIndex a (by simp [Instr.operands]) hbad⟩

theorem execRet_cases (s : State) : ExecCases .ret s := by
  unfold ExecCases
  change (∃ t, execRet s = _ ∧ _) ∨ ∃ e, execRet s = _ ∧ _
  unfold execRet
  rw [pop_eq]
  by_cases h0 : s.reg 7 = 0xFF#8
  · exact .inr ⟨_, by simp only [h0, if_true]; rfl, .stackBound _ (.inr rfl) (.inl rfl)⟩
  · refine .inl ⟨_, by simp only [h0, if_false]; rfl, ?_⟩
    exact ⟨rfl, rfl, rfl, rfl, rfl, by simp, fun _ => rfl, fun _ _ => rfl, fun _ => rfl, by simp,
      fun _ _ => rfl, fun _ _ => rfl, id, fun h => absurd h (by decide)⟩

theorem execHlt_cases (s : State) : ExecCases .hlt s := .inr ⟨_, rfl, .hlt rfl⟩

theorem interruptReturn_error {s : State} {e : Stop} (h : interruptReturn s = .error e) :
    e = raise .stackBound 0xFF#8 := by
  unfold interruptReturn at h
  obtain h | ⟨u, -, h⟩ := bind_eq_error.mp h
  · exact popRegs_error _ h
  · obtain h | ⟨v, -, h⟩ := bind_eq_error.mp h
    · exact pop_error _ h
    · obtain h | ⟨w, -, h⟩ := bind_eq_error.mp h
      · exact pop_error _ h
      · cases h

theorem execIret_cases (s : State) : ExecCases .iret s := by
  unfold ExecCases
  change (∃ t, execIret s = _ ∧ _) ∨ ∃ e, execIret s = _ ∧ _
  unfold execIret
  cases h : interruptReturn s with
  | ok t =>
    obtain ⟨-, hrun, hcause, hepc, heinfo, hout, hmem, hin⟩ := interruptReturn_ok s h
    refine .inl ⟨t, rfl, hrun, hcause, hepc, heinfo, hin, by simp, fun h => absurd rfl h, fun h => absurd rfl h,
      fun _ => hout, by simp, fun _ _ => hmem, fun _ _ => congrArg (Memory.read · _) hmem, fun h => hmem ▸ h,
      fun h => absurd h (by decide)⟩
  | error e =>
    obtain rfl := interruptReturn_error h
    exact .inr ⟨_, rfl, .stackBound _ (.inr rfl) (.inr (.inl rfl))⟩

/-- Everything an instruction can do: it completes, changing only what `Completed` allows, or it stops in one of the ways
of `StopOf`, keeping nothing (60 R188). -/
theorem exec_cases (i : Instr) (s : State) : ExecCases i s := by
  cases i with
  | hlt => exact execHlt_cases s
  | ret => exact execRet_cases s
  | iret => exact execIret_cases s
  | push a => exact execPush_cases a s
  | pop a => exact execPop_cases a s
  | prn a => exact execPrn_cases a s
  | call a => exact execCall_cases a s
  | jmp a => exact jumpIf_cases _ a s rfl rfl (by decide : setsPc Opcode.jmp.byte = true) (by simp)
  | jeq a => exact jumpIf_cases _ a s rfl rfl (by decide : setsPc Opcode.jeq.byte = true) (by simp)
  | jne a => exact jumpIf_cases _ a s rfl rfl (by decide : setsPc Opcode.jne.byte = true) (by simp)
  | not a => exact execNot_cases a s
  | ldi a b => exact registerLiteral_cases (fun _ v => v) a b s rfl rfl (by simp)
  | add a b => exact twoRegisters_cases _ a b s rfl rfl (by simp)
  | sub a b => exact twoRegisters_cases _ a b s rfl rfl (by simp)
  | mul a b => exact twoRegisters_cases _ a b s rfl rfl (by simp)
  | mod a b => exact execMod_cases a b s
  | cmp a b => exact execCmp_cases a b s
  | and a b => exact twoRegisters_cases _ a b s rfl rfl (by simp)
  | or a b => exact twoRegisters_cases _ a b s rfl rfl (by simp)
  | xor a b => exact twoRegisters_cases _ a b s rfl rfl (by simp)
  | shl a b => exact twoRegisters_cases _ a b s rfl rfl (by simp)
  | shr a b => exact twoRegisters_cases _ a b s rfl rfl (by simp)
  | addi a b => exact registerLiteral_cases wrapAdd a b s rfl rfl (by simp)

end Sys2Proof.Machine
end

