-- ==== Sys2Proof/Laws/PerInstr.lean ====
section
/-! SUPPORT. Facts about every instruction as syntax, one lemma per constructor. -/

namespace Sys2Proof.Laws

/-- An opcode byte's fields agree with the instruction (30_encoding R71, R80): bits 7:6 count its operand bytes, and the
handler remakes the instruction from them. -/
def OpcodeFields.Statement (i : Instr) : Prop :=
  nops i.opcode.byte = i.operands.length ∧
    i.opcode.instr (i.operands.getD 0 0) (i.operands.getD 1 0) = i

namespace OpcodeFields

theorem hlt : Statement .hlt := ⟨by decide, rfl⟩
theorem ret : Statement .ret := ⟨by decide, rfl⟩
theorem iret : Statement .iret := ⟨by decide, rfl⟩
theorem push (a : Byte) : Statement (.push a) := ⟨(by decide : nops Opcode.push.byte = 1), rfl⟩
theorem pop (a : Byte) : Statement (.pop a) := ⟨(by decide : nops Opcode.pop.byte = 1), rfl⟩
theorem prn (a : Byte) : Statement (.prn a) := ⟨(by decide : nops Opcode.prn.byte = 1), rfl⟩
theorem call (a : Byte) : Statement (.call a) := ⟨(by decide : nops Opcode.call.byte = 1), rfl⟩
theorem jmp (a : Byte) : Statement (.jmp a) := ⟨(by decide : nops Opcode.jmp.byte = 1), rfl⟩
theorem jeq (a : Byte) : Statement (.jeq a) := ⟨(by decide : nops Opcode.jeq.byte = 1), rfl⟩
theorem jne (a : Byte) : Statement (.jne a) := ⟨(by decide : nops Opcode.jne.byte = 1), rfl⟩
theorem not (a : Byte) : Statement (.not a) := ⟨(by decide : nops Opcode.not.byte = 1), rfl⟩
theorem ldi (a b : Byte) : Statement (.ldi a b) := ⟨(by decide : nops Opcode.ldi.byte = 2), rfl⟩
theorem add (a b : Byte) : Statement (.add a b) := ⟨(by decide : nops Opcode.add.byte = 2), rfl⟩
theorem sub (a b : Byte) : Statement (.sub a b) := ⟨(by decide : nops Opcode.sub.byte = 2), rfl⟩
theorem mul (a b : Byte) : Statement (.mul a b) := ⟨(by decide : nops Opcode.mul.byte = 2), rfl⟩
theorem mod (a b : Byte) : Statement (.mod a b) := ⟨(by decide : nops Opcode.mod.byte = 2), rfl⟩
theorem cmp (a b : Byte) : Statement (.cmp a b) := ⟨(by decide : nops Opcode.cmp.byte = 2), rfl⟩
theorem and (a b : Byte) : Statement (.and a b) := ⟨(by decide : nops Opcode.and.byte = 2), rfl⟩
theorem or (a b : Byte) : Statement (.or a b) := ⟨(by decide : nops Opcode.or.byte = 2), rfl⟩
theorem xor (a b : Byte) : Statement (.xor a b) := ⟨(by decide : nops Opcode.xor.byte = 2), rfl⟩
theorem shl (a b : Byte) : Statement (.shl a b) := ⟨(by decide : nops Opcode.shl.byte = 2), rfl⟩
theorem shr (a b : Byte) : Statement (.shr a b) := ⟨(by decide : nops Opcode.shr.byte = 2), rfl⟩
theorem addi (a b : Byte) : Statement (.addi a b) := ⟨(by decide : nops Opcode.addi.byte = 2), rfl⟩

end OpcodeFields

/-- The operand count of an instruction's opcode byte is the number of its operand bytes. -/
theorem nops_opcode (i : Instr) : nops i.opcode.byte = i.operands.length := by
  have h : OpcodeFields.Statement i := by
    cases i with
    | hlt => exact OpcodeFields.hlt
    | ret => exact OpcodeFields.ret
    | iret => exact OpcodeFields.iret
    | push a => exact OpcodeFields.push a
    | pop a => exact OpcodeFields.pop a
    | prn a => exact OpcodeFields.prn a
    | call a => exact OpcodeFields.call a
    | jmp a => exact OpcodeFields.jmp a
    | jeq a => exact OpcodeFields.jeq a
    | jne a => exact OpcodeFields.jne a
    | not a => exact OpcodeFields.not a
    | ldi a b => exact OpcodeFields.ldi a b
    | add a b => exact OpcodeFields.add a b
    | sub a b => exact OpcodeFields.sub a b
    | mul a b => exact OpcodeFields.mul a b
    | mod a b => exact OpcodeFields.mod a b
    | cmp a b => exact OpcodeFields.cmp a b
    | and a b => exact OpcodeFields.and a b
    | or a b => exact OpcodeFields.or a b
    | xor a b => exact OpcodeFields.xor a b
    | shl a b => exact OpcodeFields.shl a b
    | shr a b => exact OpcodeFields.shr a b
    | addi a b => exact OpcodeFields.addi a b
  exact h.1

end Sys2Proof.Laws
end

