-- ==== Sys2Proof/Laws/Step.lean ====
section
/-! SUPPORT. What a step can do, said once: the laws of the phases and the inversion of `step`. -/

namespace Sys2Proof.Machine

variable (s : State)

/-! ## Phase P (40 R102) -/

/-- A poll changes `x[6]` and, with a key, one memory cell. -/
structure Polled (s p : State) : Prop where
  reg : ∀ r : Fin 8, r ≠ 6 → p.reg r = s.reg r
  pc : p.pc = s.pc
  fl : p.fl = s.fl
  ie : p.ie = s.ie
  run : p.run = s.run
  cause : p.cause = s.cause
  epc : p.epc = s.epc
  einfo : p.einfo = s.einfo
  out : p.out = s.out
  inputs : p.inputs = s.inputs
  wf : s.mem.wf = true → p.mem.wf = true

theorem poll_polled (irqIn : Byte) (kbdWrite : Option Byte) : Polled s (poll irqIn kbdWrite s) := by
  cases kbdWrite with
  | none => exact ⟨fun r h => by simp [poll, h], rfl, rfl, rfl, rfl, rfl, rfl, rfl, rfl, rfl, id⟩
  | some key =>
    exact ⟨fun r h => by simp [poll, h], rfl, rfl, rfl, rfl, rfl, rfl, rfl, rfl, rfl, Memory.write_wf _ _⟩

/-! ## Phase I (40 R103) -/

theorem serviceInterrupts_error {e : Stop} (h : serviceInterrupts s = .error e) :
    e = raise .stackBound 0x00#8 ∧ s.ie = true ∧ (s.reg 7).toNat < 9 := by
  unfold serviceInterrupts at h
  split at h
  · by_cases hs : (s.reg 7).toNat < 9
    · rw [interruptEntry_of_lt s _ hs] at h
      cases h
      exact ⟨rfl, by simp_all, hs⟩
    · obtain ⟨u, hu, -⟩ := pushAll_of_le ((s.setIe false).setReg 6 0x00#8) ((s.setIe false).setReg 6 0x00#8).frame
        (by simp [State.frame]; omega)
      rw [interruptEntry_eq, hu] at h
      cases h
  · cases h

/-- Phase I does nothing, or one line is taken with interrupts active. -/
theorem serviceInterrupts_ok {u : State} (h : serviceInterrupts s = .ok u) :
    u = s ∨ (s.ie = true ∧ ∃ n, Entered n s u) := by
  unfold serviceInterrupts at h
  split at h
  · exact .inr ⟨by simp_all, _, interruptEntry_ok s h⟩
  · cases h
    exact .inl rfl

/-- Phase I leaves these alone whatever it does. -/
theorem serviceInterrupts_keeps {u : State} (h : serviceInterrupts s = .ok u) :
    u.run = s.run ∧ u.cause = s.cause ∧ u.epc = s.epc ∧ u.einfo = s.einfo ∧ u.out = s.out ∧ u.fl = s.fl ∧
      u.inputs = s.inputs ∧ (s.mem.wf = true → u.mem.wf = true) := by
  obtain rfl | ⟨-, n, e⟩ := serviceInterrupts_ok s h
  · exact ⟨rfl, rfl, rfl, rfl, rfl, rfl, rfl, id⟩
  · exact ⟨e.run, e.cause, e.epc, e.einfo, e.out, e.fl, e.inputs, e.wf⟩

/-! ## Phase X: the fetch (40 R104 to R107) -/

/-- The operand bytes that exist are those below address 256. -/
theorem operandBytes_eq :
    s.operandBytes =
      if s.pc.toNat + 2 ≤ 255 then [s.memRead (s.pc + 1#8), s.memRead (s.pc + 2#8)]
      else if s.pc.toNat + 1 ≤ 255 then [s.memRead (s.pc + 1#8)] else [] := by
  unfold State.operandBytes
  by_cases h2 : s.pc.toNat + 2 ≤ 255
  · have h1 : s.pc.toNat + 1 ≤ 255 := by omega
    simp [h1, h2]
  · by_cases h1 : s.pc.toNat + 1 ≤ 255 <;> simp [h1, h2]

/-- What a successful fetch read: the opcode byte at `pc`, and the operand bytes after it, all below address 256. -/
theorem fetch_ok {i : Instr} (h : fetch s = .ok i) :
    i.opcode.byte = s.memRead s.pc ∧ s.pc.toNat + i.operands.length ≤ 255 ∧
      ∀ (k : Nat) (hk : k < i.operands.length), s.memRead (s.pc + BitVec.ofNat 8 (k + 1)) = i.operands[k] := by
  unfold fetch at h
  split at h
  · rename_i j rest hd
    cases h
    rw [operandBytes_eq] at hd
    obtain ⟨o, ho, hcase⟩ := decodeOp_ok hd
    rw [← ho] at hcase ⊢
    split at hcase
    · rename_i h2
      obtain ⟨hn, -, rfl⟩ | ⟨hn, a, hb, rfl⟩ | ⟨hn, a, b, hb, rfl⟩ := hcase
      · cases o <;> first
          | exact absurd hn (by decide)
          | exact ⟨rfl, by simp [Opcode.instr, Instr.operands]; omega, by simp [Opcode.instr, Instr.operands]⟩
      · obtain ⟨rfl, -⟩ := List.cons.inj hb
        cases o <;> first
          | exact absurd hn (by decide)
          | exact ⟨rfl, by simp [Opcode.instr, Instr.operands]; omega, by simp [Opcode.instr, Instr.operands]⟩
      · obtain ⟨rfl, hb'⟩ := List.cons.inj hb
        obtain ⟨rfl, -⟩ := List.cons.inj hb'
        cases o <;> first
          | exact absurd hn (by decide)
          | exact ⟨rfl, by simp [Opcode.instr, Instr.operands]; omega, fun k hk => by
              simp only [Opcode.instr, Instr.operands, List.length_cons, List.length_nil] at hk
              interval_cases k <;> rfl⟩
    · split at hcase
      · rename_i h1
        obtain ⟨hn, -, rfl⟩ | ⟨hn, a, hb, rfl⟩ | ⟨-, a, b, hb, -⟩ := hcase
        · cases o <;> first
            | exact absurd hn (by decide)
            | exact ⟨rfl, by simp [Opcode.instr, Instr.operands]; omega, by simp [Opcode.instr, Instr.operands]⟩
        · obtain ⟨rfl, -⟩ := List.cons.inj hb
          cases o <;> first
            | exact absurd hn (by decide)
            | exact ⟨rfl, by simp [Opcode.instr, Instr.operands]; omega, by simp [Opcode.instr, Instr.operands]⟩
        · simp at hb
      · obtain ⟨hn, -, rfl⟩ | ⟨-, a, hb, -⟩ | ⟨-, a, b, hb, -⟩ := hcase
        · have := s.pc.isLt
          cases o <;> first
            | exact absurd hn (by decide)
            | exact ⟨rfl, by simp [Opcode.instr, Instr.operands]; omega, by simp [Opcode.instr, Instr.operands]⟩
        · simp at hb
        · simp at hb
  · cases h

/-- Why a fetch fails: an unknown opcode, or an operand byte beyond address 255 (R105, R107). -/
theorem fetch_error {e : Stop} (h : fetch s = .error e) :
    (rom (s.memRead s.pc) = none ∧ e = raise .unknownOpcode (s.memRead s.pc)) ∨
      (rom (s.memRead s.pc) ≠ none ∧ 255 < s.pc.toNat + nops (s.memRead s.pc) ∧
        e = raise .fetchBound (BitVec.ofNat 8 (nops (s.memRead s.pc)))) := by
  unfold fetch at h
  split at h
  · cases h
  · rename_i d hd
    cases h
    obtain ⟨hr, rfl⟩ | ⟨hr, hlt, rfl⟩ := decodeOp_error hd
    · exact .inl ⟨hr, rfl⟩
    · refine .inr ⟨hr, ?_, rfl⟩
      rw [operandBytes_eq] at hlt
      have := nops_le (s.memRead s.pc) hr
      split at hlt
      · simp at hlt; omega
      · split at hlt <;> simp at hlt <;> omega

/-! ## The step (40 R101, R100; 70 R221) -/

/-- Everything a step can be. `p` is the state after phase P, `u` the one after phase I. -/
theorem step_cases {t : State} (h : step s = .next t) :
    (s.nextInput = .rst ∧ t = s.takeInput.resetCore) ∨
      ∃ irqIn kbdWrite, s.nextInput = .sample irqIn kbdWrite ∧
        ((s.run ≠ .running ∧ t = s.takeInput) ∨
          (s.run = .running ∧ ∃ p, p = poll irqIn kbdWrite s.takeInput ∧ Polled s.takeInput p ∧
            ((∃ e, serviceInterrupts p = .error e ∧ t = p.stop e) ∨
              ∃ u, serviceInterrupts p = .ok u ∧
                ((∃ e, fetch u = .error e ∧ t = u.stop e) ∨ ∃ i, fetch u = .ok i ∧ exec i u = .next t)))) := by
  unfold step transaction at h
  cases hi : s.nextInput with
  | rst =>
    rw [hi] at h
    cases h
    exact .inl ⟨rfl, rfl⟩
  | sample irqIn kbdWrite =>
    rw [hi] at h
    refine .inr ⟨irqIn, kbdWrite, rfl, ?_⟩
    have hrun : s.takeInput.run = s.run := rfl
    simp only [hrun] at h
    cases hr : s.run with
    | halted =>
      rw [hr] at h
      cases h
      exact .inl ⟨by simp, rfl⟩
    | faulted =>
      rw [hr] at h
      cases h
      exact .inl ⟨by simp, rfl⟩
    | running =>
      rw [hr] at h
      refine .inr ⟨rfl, _, rfl, poll_polled _ _ _, ?_⟩
      simp only [runningStep] at h
      split at h
      · rename_i u hu
        refine .inr ⟨u, hu, ?_⟩
        unfold executePhase at h
        split at h
        · exact .inr ⟨_, ‹_›, h⟩
        · cases h
          exact .inl ⟨_, ‹_›, rfl⟩
      · cases h
        exact .inl ⟨_, ‹_›, rfl⟩

end Sys2Proof.Machine
end

