-- ==== Sys2Proof/Machine/Observe.lean ====
section
/-! DEFINITION. What the host reads and presents (spec 00_scope R9, 60_exceptions R201, R202, R204, 70 R236). Nothing here
is state, and reading changes nothing. -/

namespace Sys2Proof.Machine

/-- The debug-trace collaborator's view (00_scope R9, R204): `pc`, the memory cells at `pc` that exist (at most three), and
all registers: the general ones, the flags register (10_state R26) and the diagnostic ones (10_state R33). That it shows
`IE` and `RUN` too, which the spec calls a flag and a run state, is this model's DESIGN CHOICE (log 11). -/
structure DebugView where
  pc : Byte
  cells : List Byte
  x : Vector Byte 8
  fl : FlagBits
  ie : Bool
  run : RunState
  cause : Cause
  epc : Byte
  einfo : Byte
  deriving DecidableEq, Repr

/-- The read-only debug view (R204); fewer than three cells are shown when `pc` is within two of the top (log 11). -/
def State.debugView (s : State) : DebugView where
  pc := s.pc
  cells := s.memRead s.pc :: s.operandBytes
  x := s.x
  fl := s.fl
  ie := s.ie
  run := s.run
  cause := s.cause
  epc := s.epc
  einfo := s.einfo

/-- The status outputs `run_state`, `cause`, `epc`, `einfo` (R9, R33). -/
def State.status (s : State) : RunState × BitVec 3 × Byte × Byte := (s.run, s.cause.code, s.epc, s.einfo)

/-- What the operator's screen shows: each emitted value in decimal, one a line (10_state R35, 42 R141). -/
def State.display (s : State) : List String := s.out.map fun v => toString v.toNat

/-- A step without outside signals (10_state R36). -/
def quietInput : StepInput := .sample 0x00#8 none

/-- A tick of the timer source (R201) on its line (log 8). -/
def timerTick : StepInput := .sample (0x01#8 <<< Config.timerIrqBit) none

/-- A keystroke of the input-ready source (R202): the key code for cell 0xF4 and a 1 on its line (log 8). -/
def keystroke (key : Byte) : StepInput := .sample (0x01#8 <<< Config.kbdIrqBit) (some key)

end Sys2Proof.Machine
end

