-- ==== Sys2Proof/Tests/Slice0.lean ====
section
/-! SUPPORT. Tests. Every expected value is one of spec/95_test_vectors.md (the vector is named) or a word written out
from spec/30_encoding.md R70 and R73. The second half holds one witness for the hypotheses of each obligation. -/

namespace Sys2Proof.Tests

open Sys2Proof Sys2Proof.Machine

/-! ## WellFormed refuses an ill-formed term for each of its checks (40 R108) -/

theorem test_wf_formatR_refuses : (Instr.push 0x08#8).wellFormed = false := by decide
theorem test_wf_formatRI_refuses : (Instr.ldi 0xFF#8 0x00#8).wellFormed = false := by decide
theorem test_wf_formatRR_refuses_a : (Instr.add 0x08#8 0x00#8).wellFormed = false := by decide
theorem test_wf_formatRR_refuses_b : (Instr.add 0x07#8 0x08#8).wellFormed = false := by decide
theorem test_wf_literal_is_free : (Instr.addi 0x07#8 0xFF#8).wellFormed = true := by decide

/-! ## Decoding: one word per instruction, written bit by bit from R73 and R70 -/

theorem test_decode_hlt : decode [0b00000001#8] = .ok (.hlt, []) := by decide
theorem test_decode_ret : decode [0b00010001#8] = .ok (.ret, []) := by decide
theorem test_decode_iret : decode [0b00010011#8] = .ok (.iret, []) := by decide
theorem test_decode_push : decode [0b01000101#8, 0b00000111#8] = .ok (.push 7, []) := by decide
theorem test_decode_pop : decode [0b01000110#8, 0b00000001#8] = .ok (.pop 1, []) := by decide
theorem test_decode_prn : decode [0b01000111#8, 0b00000010#8] = .ok (.prn 2, []) := by decide
theorem test_decode_call : decode [0b01010000#8, 0b00000001#8] = .ok (.call 1, []) := by decide
theorem test_decode_jmp : decode [0b01010100#8, 0b00000010#8] = .ok (.jmp 2, []) := by decide
theorem test_decode_jeq : decode [0b01010101#8, 0b00000010#8] = .ok (.jeq 2, []) := by decide
theorem test_decode_jne : decode [0b01010110#8, 0b00000010#8] = .ok (.jne 2, []) := by decide
theorem test_decode_not : decode [0b01101001#8, 0b00000000#8] = .ok (.not 0, []) := by decide
theorem test_decode_ldi : decode [0b10000010#8, 0b00000011#8, 0b10101011#8] = .ok (.ldi 3 171, []) := by decide
theorem test_decode_add : decode [0b10100000#8, 0b00000000#8, 0b00000001#8] = .ok (.add 0 1, []) := by decide
theorem test_decode_sub : decode [0b10100001#8, 0b00000000#8, 0b00000001#8] = .ok (.sub 0 1, []) := by decide
theorem test_decode_mul : decode [0b10100010#8, 0b00000000#8, 0b00000001#8] = .ok (.mul 0 1, []) := by decide
theorem test_decode_mod : decode [0b10100100#8, 0b00000010#8, 0b00000011#8] = .ok (.mod 2 3, []) := by decide
theorem test_decode_cmp : decode [0b10100111#8, 0b00000000#8, 0b00000001#8] = .ok (.cmp 0 1, []) := by decide
theorem test_decode_and : decode [0b10101000#8, 0b00000000#8, 0b00000001#8] = .ok (.and 0 1, []) := by decide
theorem test_decode_or : decode [0b10101010#8, 0b00000000#8, 0b00000001#8] = .ok (.or 0 1, []) := by decide
theorem test_decode_xor : decode [0b10101011#8, 0b00000000#8, 0b00000001#8] = .ok (.xor 0 1, []) := by decide
theorem test_decode_shl : decode [0b10101100#8, 0b00000000#8, 0b00000001#8] = .ok (.shl 0 1, []) := by decide
theorem test_decode_shr : decode [0b10101101#8, 0b00000000#8, 0b00000001#8] = .ok (.shr 0 1, []) := by decide
theorem test_decode_addi : decode [0b10101110#8, 0b00000111#8, 0b11111111#8] = .ok (.addi 7 255, []) := by decide

/-- Bits 15..8 are the second byte, bits 23..16 the third, and bits above `nbits` are zero. -/
theorem test_decodeTableWord :
    decodeTableWord 24 0xAB0382 = some (.ldi 0x03#8 0xAB#8) ∧ decodeTableWord 8 0xFFFF82 = some (.ldi 0x00#8 0x00#8) := by
  decide

/-- The bytes T-DEC lists as decoding to nothing. -/
theorem test_decode_nothing :
    ([0x00, 0x02, 0x10, 0x12, 0x48, 0x52, 0x57, 0x65, 0x83, 0x84, 0xA3, 0xA5, 0xA6, 0xA9, 0xAF, 0xC0, 0xFF] :
      List Byte).all (fun op => (rom op).isNone) = true := by
  decide

theorem test_decode_missing_operand : decode [0x82#8, 0x00#8] = .error (.missingOperand 2) := by decide

/-! ## Small states and what is looked at -/

/-- Reset, but for `pc`, some registers, and bytes at the given addresses. -/
def machine (pc : Byte) (x : List (Fin 8 × Byte)) (code : List Byte) (cells : List (Byte × Byte) := []) : State :=
  cells.foldl (fun s c => s.memWrite c.1 c.2)
    (storeBytes pc.toNat code (x.foldl (fun s r => s.setReg r.1 r.2) (State.reset.setPc pc)))

/-- The state in an outcome that has one. -/
def stateOf : Host.Outcome State Fault Refusal → Option State
  | .next t => some t
  | .fault _ => none
  | .refused _ => none

/-- The state after one step. -/
def after (s : State) : Option State := stateOf (step s)

/-- Register `r`, the flags and `pc` after one step. -/
def seen (r : Fin 8) (s : State) : Option (Byte × FlagBits × Byte) := (after s).map fun t => (t.reg r, t.fl, t.pc)

/-- Register 7, the cell at `a`, `pc` and the cause after one step. -/
def seenStack (a : Byte) (s : State) : Option (Byte × Byte × Byte × Cause) :=
  (after s).map fun t => (t.reg 7, t.memRead a, t.pc, t.cause)

/-- The diagnostic registers and `pc` after one step. -/
def seenStop (s : State) : Option (RunState × BitVec 3 × Byte × Byte × Byte) :=
  (after s).map fun t => (t.run, t.cause.code, t.epc, t.einfo, t.pc)

/-- The nine frame cells from `a` up. -/
def nineCells (a : Byte) (t : State) : List Byte :=
  ([0, 1, 2, 3, 4, 5, 6, 7, 8] : List Nat).map fun k => t.memRead (a + BitVec.ofNat 8 k)

/-! ## One step of each instruction (95_test_vectors Part 2) -/

/-- T-ALU's start: `x[0] = a`, `x[1] = b`, `FL = 0b100`. -/
def alu (op a b : Byte) : State := (machine 0x00#8 [(0, a), (1, b)] [op, 0x00#8, 0x01#8]).setFl 0b100#3

theorem test_add_wraps : seen 0 (alu 0xA0#8 0xC8#8 0x64#8) = some (0x2C#8, 0b100#3, 0x03#8) := by decide -- T-ALU 4
theorem test_add_to_sp : seen 7 (machine 0 [(0, 0x04#8)] [0xA0#8, 7, 0]) = some (0xF8#8, 0b000#3, 0x03#8) := by decide
theorem test_sub_borrow : seen 0 (alu 0xA1#8 0x03#8 0x05#8) = some (0xFE#8, 0b100#3, 0x03#8) := by decide -- T-ALU 7
theorem test_sub_same : seen 2 (machine 0 [(2, 0x90#8)] [0xA1#8, 2, 2]) = some (0x00#8, 0b000#3, 0x03#8) := by decide
theorem test_mul_wraps : seen 0 (alu 0xA2#8 0xFF#8 0xFF#8) = some (0x01#8, 0b100#3, 0x03#8) := by decide -- T-ALU 11
theorem test_and : seen 0 (alu 0xA8#8 0xCC#8 0xAA#8) = some (0x88#8, 0b100#3, 0x03#8) := by decide -- T-ALU 14
theorem test_or : seen 0 (alu 0xAA#8 0xCC#8 0xAA#8) = some (0xEE#8, 0b100#3, 0x03#8) := by decide -- T-ALU 15
theorem test_xor : seen 0 (alu 0xAB#8 0xCC#8 0xAA#8) = some (0x66#8, 0b100#3, 0x03#8) := by decide -- T-ALU 16
theorem test_shl_whole_count : seen 0 (alu 0xAC#8 0xFF#8 0x08#8) = some (0x00#8, 0b100#3, 0x03#8) := by decide -- T-SH 3
theorem test_shl_plain : seen 0 (alu 0xAC#8 0x81#8 0x01#8) = some (0x02#8, 0b100#3, 0x03#8) := by decide -- T-SH 1
theorem test_shr_logical : seen 0 (alu 0xAD#8 0x81#8 0x01#8) = some (0x40#8, 0b100#3, 0x03#8) := by decide -- T-SH 6
theorem test_shr_whole_count : seen 0 (alu 0xAD#8 0xFF#8 0x09#8) = some (0x00#8, 0b100#3, 0x03#8) := by decide -- T-SH 9
theorem test_mod_unsigned : seen 0 (alu 0xA4#8 0xFF#8 0x10#8) = some (0x0F#8, 0b100#3, 0x03#8) := by decide -- T-MOD 3
theorem test_mod_zero : -- T-MOD 7
    seenStop (alu 0xA4#8 0x0A#8 0x00#8) = some (.halted, 2#3, 0x00#8, 0x00#8, 0x00#8) := by decide
theorem test_cmp_unsigned : seen 0 (alu 0xA7#8 0x80#8 0x7F#8) = some (0x80#8, 0b010#3, 0x03#8) := by decide -- T-CMP 4
theorem test_cmp_rewrites : -- T-CMP 7
    seen 0 ((alu 0xA7#8 0x05#8 0x06#8).setFl 0b011#3) = some (0x05#8, 0b100#3, 0x03#8) := by decide
theorem test_not : seen 0 (machine 0 [(0, 0x0F#8)] [0x69#8, 0]) = some (0xF0#8, 0b000#3, 0x02#8) := by decide -- T-NOT 1
theorem test_addi_unsigned : -- T-ADDI 3
    seen 0 (machine 0 [(0, 0x03#8)] [0xAE#8, 0, 0xFF#8]) = some (0x02#8, 0b000#3, 0x03#8) := by decide
theorem test_addi_literal_unchecked : -- T-ADDI 6
    seen 0 (machine 0 [(0, 0x01#8)] [0xAE#8, 0, 0x08#8]) = some (0x09#8, 0b000#3, 0x03#8) := by decide
theorem test_ldi : seen 3 (machine 0 [] [0x82#8, 3, 0xAB#8]) = some (0xAB#8, 0b000#3, 0x03#8) := by decide -- T-LDI 1
theorem test_ldi_bad_register : -- T-LDI 4
    seenStop (machine 0 [] [0x82#8, 0x08#8, 0x10#8]) = some (.faulted, 6#3, 0x00#8, 0x08#8, 0x00#8) := by decide
theorem test_prn : -- T-PRN 6
    (after (machine 0 [(2, 0xFF#8)] [0x47#8, 2])).map (fun t => (t.out, t.pc)) = some ([255#8], 0x02#8) := by decide
theorem test_prn_not_committed : -- T-FLT 9
    (after (machine 0xFE#8 [] [0x47#8, 0])).map (fun t => (t.out, t.cause, t.einfo)) = some ([], .pcBound, 0x02#8) := by
  decide
theorem test_push_sp : -- T-STK 2
    seenStack 0xF3#8 (machine 0 [] [0x45#8, 7]) = some (0xF3#8, 0xF3#8, 0x02#8, .none) := by decide
theorem test_push_bound : -- T-STK 4
    seenStack 0xFF#8 (machine 0 [(0, 1), (7, 0)] [0x45#8, 0]) = some (0x00#8, 0x00#8, 0x00#8, .stackBound) := by decide
theorem test_pop_sp : -- T-STK 8
    seenStack 0xF3#8 (machine 0 [(7, 0xF3#8)] [0x46#8, 7] [(0xF3#8, 0x20#8)]) =
      some (0x21#8, 0x20#8, 0x02#8, .none) := by decide
theorem test_pop_sp_bound : -- T-STK 9
    seenStack 0xF3#8 (machine 0 [(7, 0xF3#8)] [0x46#8, 7] [(0xF3#8, 0xFF#8)]) =
      some (0xF3#8, 0xFF#8, 0x00#8, .stackBound) := by decide
theorem test_call_sp : -- T-CALL 2
    seenStack 0xF3#8 (machine 0x06#8 [] [0x50#8, 7]) = some (0xF3#8, 0x08#8, 0xF3#8, .none) := by decide
theorem test_call_bound : -- T-CALL 4
    seenStack 0xF3#8 (machine 0xFE#8 [(1, 0x0C#8)] [0x50#8, 1]) = some (0xF4#8, 0x00#8, 0xFE#8, .pcBound) := by decide
theorem test_ret_at_top : -- T-CALL 7
    seenStack 0xF3#8 (machine 0xFF#8 [(7, 0xF3#8)] [0x11#8] [(0xF3#8, 0x08#8)]) =
      some (0xF4#8, 0x08#8, 0x08#8, .none) := by decide
theorem test_jmp_at_top : seen 2 (machine 0xFE#8 [(2, 0x00#8)] [0x54#8, 2]) = some (0, 0b000#3, 0x00#8) := by decide
theorem test_jmp_fetch_bound : -- T-JMP 4
    seenStop (machine 0xFF#8 [(2, 0x40#8)] [0x54#8]) = some (.faulted, 4#3, 0xFF#8, 0x01#8, 0xFF#8) := by decide
theorem test_jeq_taken : -- T-JMP 9
    seen 2 ((machine 0x10#8 [(2, 0x40#8)] [0x55#8, 2]).setFl 0b111#3) = some (0x40#8, 0b111#3, 0x40#8) := by decide
theorem test_jeq_not_taken : -- T-JMP 6
    seen 2 ((machine 0x10#8 [(2, 0x40#8)] [0x55#8, 2]).setFl 0b010#3) = some (0x40#8, 0b010#3, 0x12#8) := by decide
theorem test_jne_taken : seen 2 (machine 0x10#8 [(2, 0x40#8)] [0x56#8, 2]) = some (0x40#8, 0b000#3, 0x40#8) := by decide
theorem test_jne_not_taken : -- T-JMP 14
    seen 2 ((machine 0x10#8 [(2, 0x40#8)] [0x56#8, 2]).setFl 0b111#3) = some (0x40#8, 0b111#3, 0x12#8) := by decide
theorem test_hlt_at_top : -- T-FLT 10
    seenStop (machine 0xFF#8 [] [0x01#8]) = some (.halted, 1#3, 0xFF#8, 0x00#8, 0xFF#8) := by decide

/-- T-IRET 2: the highest legal pointer, no entry before, the flags byte truncated. -/
theorem test_iret :
    (after (machine 0x30#8 [(7, 0xF6#8)] [0x13#8]
        [(0xF6#8, 1), (0xF7#8, 2), (0xF8#8, 3), (0xF9#8, 4), (0xFA#8, 5), (0xFB#8, 6), (0xFC#8, 7), (0xFD#8, 0xFF#8),
          (0xFE#8, 0x99#8)])).map (fun t => (t.x, t.fl, t.pc, t.ie)) =
      some (#v[7, 6, 5, 4, 3, 2, 1, 0xFF#8], 0b111#3, 0x99#8, true) := by
  decide

/-- T-IRET 3. -/
theorem test_iret_bound :
    seenStop (machine 0x30#8 [(7, 0xF7#8)] [0x13#8]) = some (.faulted, 7#3, 0x30#8, 0xFF#8, 0x30#8) := by decide

/-! ## Faults, interrupts, reset -/

/-- T-FLT 4: UnknownOpcode before FetchBound; T-FLT 12: operand `b`; T-FLT 15: StackBound before PcBound. -/
theorem test_fault_priorities :
    seenStop (machine 0xFF#8 [] []) = some (.faulted, 3#3, 0xFF#8, 0x00#8, 0xFF#8) ∧
    seenStop (machine 0 [] [0xA0#8, 0, 0x09#8]) = some (.faulted, 6#3, 0x00#8, 0x09#8, 0x00#8) ∧
    seenStop (machine 0xFE#8 [(7, 0)] [0x45#8, 0]) = some (.faulted, 7#3, 0xFE#8, 0x00#8, 0xFE#8) :=
  ⟨by decide, by decide, by decide⟩

/-- A state whose next input is one sample of interrupt lines. -/
def withLines (irqIn : Byte) (s : State) : State := { s with inputs := [.sample irqIn none] }

/-- T-INT 1: entry and the first instruction of the handler in one step. -/
theorem test_interrupt_entry :
    (after (withLines 0x01#8 ((machine 0x12#8 [(0, 0x09#8), (1, 0x07#8), (5, 0x01#8)] []
        [(0xF8#8, 0x40#8), (0x40#8, 0x82#8), (0x41#8, 0x02#8), (0x42#8, 0x33#8)]).setFl 0b100#3))).map
        (fun t => (nineCells 0xEB#8 t, t.x, t.fl, t.ie, t.pc)) =
      some ([0, 1, 0, 0, 0, 0x07#8, 0x09#8, 0x04#8, 0x12#8], #v[0x09#8, 0x07#8, 0x33#8, 0, 0, 1, 0, 0xEB#8], 0b100#3,
        false, 0x43#8) := by
  decide

/-- T-INT 8: the vector is read after the pushes. -/
theorem test_interrupt_vector_overwritten :
    (after (withLines 0x01#8 (machine 0x12#8 [(5, 0x01#8), (7, 0xF9#8)] [0x82#8, 0, 1] [(0xF8#8, 0x40#8)]))).map
        (fun t => (t.memRead 0xF8#8, t.reg 7, t.reg 0, t.pc)) = some (0x12#8, 0xF0#8, 0x01#8, 0x15#8) := by
  decide

/-- T-INT 6: eight bytes of room are not enough; the poll is kept. -/
theorem test_interrupt_no_room :
    (after (withLines 0x01#8 (machine 0x12#8 [(5, 0x01#8), (7, 0x08#8)] []))).map
        (fun t => (t.cause, t.epc, t.reg 6, t.ie, t.reg 7)) = some (.stackBound, 0x12#8, 0x01#8, true, 0x08#8) := by
  decide

/-- T-INT 2 and 3: a masked line, or interrupts inactive: the pending bit is kept and the instruction runs. -/
theorem test_interrupt_masked :
    (after (withLines 0x01#8 (machine 0x12#8 [] [0x82#8, 0, 1]))).map (fun t => (t.reg 6, t.pc)) =
      some (0x01#8, 0x15#8) ∧
    (after (withLines 0x01#8 ((machine 0x12#8 [(5, 1)] [0x82#8, 0, 1]).setIe false))).map (fun t => (t.reg 6, t.pc)) =
      some (0x01#8, 0x15#8) := by
  decide

/-- P6, step 10: a keystroke writes the key cell, and line 1 is taken through 0xF9. -/
theorem test_keystroke :
    (after { machine 0x11#8 [(5, 0x02#8)] [0x54#8, 1] [(0xF9#8, 0x20#8), (0x20#8, 0x82#8), (0x21#8, 7), (0x22#8, 0xF4#8)]
        with inputs := [keystroke 0x41#8] }).map (fun t => (t.memRead 0xF4#8, t.pc, t.ie)) =
      some (0x41#8, 0x23#8, false) := by
  decide

/-- `rst` is the way out of a stop; memory stays (T-RST 2). -/
theorem test_reset_from_fault :
    (after { machine 0x33#8 [(7, 0)] [0x82#8] with run := .faulted, cause := .unknownOpcode, inputs := [.rst] }) =
      some { State.reset with mem := [(0x33, 0x82#8)] } := by
  decide

theorem test_reset_memory_canonical : State.reset.mem.wf = true := by decide

/-- A word placed by the host is what the very next step runs, first after reset. -/
theorem test_withFetchWord : seen 0 (State.reset.withFetchWord 24 0x050082) = some (0x05#8, 0b000#3, 0x03#8) := by decide

/-- R204: reading is no step; the flags register is among all registers, and no cell is above 0xFF. -/
theorem test_debugView :
    ((machine 0xFE#8 [] [0x47#8]).setFl 0b100#3).debugView =
      ⟨0xFE#8, [0x47#8, 0], #v[0, 0, 0, 0, 0, 0, 0, 0xF4#8], 0b100#3, true, .running, .none, 0, 0⟩ := by decide

/-- S1: the operator sees `15`. -/
theorem test_display : (State.reset.emit 0x0F#8).display = ["15"] := by decide

/-! ## The written form and the image format (30 R76, R77; P1 of Part 3) -/

theorem test_assemblyOf : assemblyOf (.ldi 0x00#8 0x05#8) = some "LDI R0,5" := by decide
theorem test_assemble : assemble "ADDI R0,0xFF".toList = some (.addi 0x00#8 0xFF#8) := by decide
theorem test_image_lines :
    imageOfLines ["10000010 # LDI".toList, "".toList, "# note".toList, " 00000101".toList] = some [0x82#8, 0x05#8] := by
  decide
theorem test_imageLine : -- R77's example, first line
    imageLine (some 0x82#8) (some (1, " LDI R0,5".toList)) = "10000010 # LDI R0,5".toList := by decide
theorem test_image_error : imageOfLines ["0000000".toList] = none := by decide

/-! ## A witness for the hypotheses of every obligation that has some, one for each clause, at boundary values -/

/-- An outcome with a state is that state's `next`. -/
theorem next_of_stateOf {o : Host.Outcome State Fault Refusal} {t : State} (h : stateOf o = some t) : o = .next t := by
  cases o <;> simp_all [stateOf]

/-- A state with `pc` at 0xFC, where a 3-byte instruction just fits, and operands for it. -/
def fits3 : State := machine 0xFC#8 [(0, 0xC8#8), (1, 0x64#8)] []

/-- A state with `pc` at 0xFD, where a 2-byte instruction just fits. -/
def fits2 : State := machine 0xFD#8 [(0, 0x0F#8), (7, 0x01#8)] []

theorem witness_EncodeOfDecodeIsTheBytes : decode [0x45#8, 0xFF#8, 0x00#8] = .ok (.push 0xFF#8, [0x00#8]) := by decide
theorem witness_LengthIsInOpcodeBits : decode (0xAE#8 :: [0x00#8, 0xFF#8]) = .ok (.addi 0x00#8 0xFF#8, []) := by decide
theorem witness_ClearBitFourAdvancesByLength :
    ∃ t, fits3.run = .running ∧ exec (.ldi 0 5) fits3 = .next t ∧ t.run = .running ∧
      setsPc (Instr.ldi 0 5).opcode.byte = false :=
  ⟨_, by decide, rfl, by decide, by decide⟩
theorem witness_EqualReadsAreEqualMemories :
    ∃ m n : Memory, m.wf = true ∧ n.wf = true ∧ ∀ a : Byte, m.read a = n.read a :=
  ⟨[(0x00, 0x82#8), (0xFF, 0x01#8)], [(0x00, 0x82#8), (0xFF, 0x01#8)], by decide, by decide, fun _ => rfl⟩
theorem witness_AddResult : fits3.pc.toNat + 3 ≤ 255 := by decide
theorem witness_AddiResult : fits3.pc.toNat + 3 ≤ 255 := by decide
theorem witness_SubResult : fits3.pc.toNat + 3 ≤ 255 := by decide
theorem witness_MulResult : fits3.pc.toNat + 3 ≤ 255 := by decide
theorem witness_AndResult : fits3.pc.toNat + 3 ≤ 255 := by decide
theorem witness_OrResult : fits3.pc.toNat + 3 ≤ 255 := by decide
theorem witness_XorResult : fits3.pc.toNat + 3 ≤ 255 := by decide
theorem witness_NotResult : fits2.pc.toNat + 2 ≤ 255 := by decide
theorem witness_ShlResult : fits3.pc.toNat + 3 ≤ 255 := by decide
theorem witness_ShrResult : fits3.pc.toNat + 3 ≤ 255 := by decide
theorem witness_ModResult : fits3.x[(1 : Fin 8)] ≠ 0x00#8 ∧ fits3.pc.toNat + 3 ≤ 255 := by decide
theorem witness_CmpResult : fits3.pc.toNat + 3 ≤ 255 := by decide
theorem witness_DivideByZeroHalts_halts : (machine 0xFD#8 [(0, 5)] []).x[(1 : Fin 8)] = 0x00#8 := by decide
theorem witness_DivideByZeroHalts_only :
    ∃ t, (machine 0xFD#8 [(0, 5)] []).cause ≠ .divideByZero ∧
      exec (.mod 0 1) (machine 0xFD#8 [(0, 5)] []) = .next t ∧ t.cause = .divideByZero :=
  ⟨_, by decide, rfl, by decide⟩
theorem witness_AluTestableProperties : fits3.pc.toNat + 3 ≤ 255 ∧ (machine 0xFA#8 [(0, 5), (1, 5)] []).pc.toNat + 5 ≤ 255 := by
  decide
theorem witness_LdiResult : fits3.pc.toNat + 3 ≤ 255 := by decide
theorem witness_PrnResult : fits2.pc.toNat + 2 ≤ 255 := by decide
theorem witness_PushResult : fits2.x[(7 : Fin 8)] ≠ 0x00#8 ∧ fits2.pc.toNat + 2 ≤ 255 := by decide
theorem witness_PopResult : -- the second part with `a = 7`
    (machine 0xFD#8 [(7, 0xFE#8)] []).x[(7 : Fin 8)] ≠ 0xFF#8 ∧ (machine 0xFD#8 [(7, 0xFE#8)] []).pc.toNat + 2 ≤ 255 ∧
      (0 : Fin 8) ≠ 7 ∧ (machine 0xFD#8 [(7, 0xFE#8)] []).memRead 0xFE#8 ≠ 0xFF#8 := by
  decide
theorem witness_CallResult : fits2.x[(7 : Fin 8)] ≠ 0x00#8 ∧ fits2.pc.toNat + 2 ≤ 255 := by decide
theorem witness_RetResult : (machine 0xFF#8 [(7, 0xFE#8)] []).x[(7 : Fin 8)] ≠ 0xFF#8 := by decide
theorem witness_JeqResult :
    (fits2.setFl 0b111#3).fl.toNat % 2 = 1 ∧ (fits2.setFl 0b110#3).fl.toNat % 2 = 0 ∧
      (fits2.setFl 0b110#3).pc.toNat + 2 ≤ 255 := by
  decide
theorem witness_JneResult :
    (fits2.setFl 0b110#3).fl.toNat % 2 = 0 ∧ (fits2.setFl 0b111#3).fl.toNat % 2 = 1 ∧
      (fits2.setFl 0b111#3).pc.toNat + 2 ≤ 255 := by
  decide
theorem witness_IretResult : (machine 0xFF#8 [(7, 0xF6#8)] []).x[(7 : Fin 8)].toNat ≤ 0xF6 := by decide
theorem witness_PushThenPopRestores :
    (machine 0xFB#8 [(7, 1)] []).x[(7 : Fin 8)] ≠ 0x00#8 ∧ (machine 0xFB#8 [(7, 1)] []).pc.toNat + 4 ≤ 255 := by
  decide
theorem witness_CallThenReturnComesBack :
    fits2.x[(7 : Fin 8)] ≠ 0x00#8 ∧ fits2.pc.toNat + 2 ≤ 255 ∧
      ∃ t, exec (.call 0) fits2 = .next t ∧ ∃ u : State, u.x[(7 : Fin 8)] = t.x[(7 : Fin 8)] ∧
        u.memRead t.x[(7 : Fin 8)] = t.memRead t.x[(7 : Fin 8)] :=
  ⟨by decide, by decide, _, rfl, _, rfl, rfl⟩
theorem witness_RegisterIndexRaised : 7 < (0x08#8).toNat ∧ (0x07#8).toNat ≤ 7 ∧ 7 < (0xFF#8).toNat := by decide
theorem witness_PcBoundRaised_three_bytes :
    (machine 0xFD#8 [(1, 3)] []).pc.toNat = 0xFD ∧ (machine 0xFD#8 [(1, 3)] []).x[(1 : Fin 8)] ≠ 0x00#8 := by
  decide
theorem witness_PcBoundRaised_two_bytes : -- PUSH at 0x01, POP at 0xFE (also of R7), JEQ and JNE
    (machine 0xFE#8 [(7, 0x01#8)] []).pc.toNat = 0xFE ∧ (machine 0xFE#8 [(7, 0x01#8)] []).x[(7 : Fin 8)] ≠ 0x00#8 ∧
      (machine 0xFE#8 [(7, 0xFE#8)] []).x[(7 : Fin 8)] ≠ 0xFF#8 ∧
      (machine 0xFE#8 [(7, 0xFE#8)] []).memRead 0xFE#8 ≠ 0xFF#8 ∧ (machine 0xFE#8 [] []).flagE = false ∧
      ((machine 0xFE#8 [] []).setFl 0b001#3).flagE = true := by
  decide
theorem witness_PcBoundRaised_only :
    ∃ t, (machine 0xFD#8 [(1, 3)] []).cause ≠ .pcBound ∧ exec (.mod 0 1) (machine 0xFD#8 [(1, 3)] []) = .next t ∧
      t.cause = .pcBound ∧ setsPc (Instr.mod 0 1).opcode.byte = false :=
  ⟨_, by decide, rfl, by decide, by decide⟩
theorem witness_StackBoundRaised : -- the six clauses that raise it, in order
    (machine 0xFD#8 [(7, 0)] []).x[(7 : Fin 8)] = 0x00#8 ∧ (machine 0xFD#8 [(7, 0)] []).pc.toNat + 2 ≤ 255 ∧
      (machine 0xFF#8 [(7, 0xFF#8)] []).x[(7 : Fin 8)] = 0xFF#8 ∧
      (machine 0x00#8 [(7, 0xF3#8)] [] [(0xF3#8, 0xFF#8)]).memRead 0xF3#8 = 0xFF#8 ∧
      0xF6 < (machine 0x30#8 [(7, 0xF7#8)] []).x[(7 : Fin 8)].toNat ∧
      (machine 0x12#8 [(7, 0x08#8)] []).x[(7 : Fin 8)].toNat < 9 := by
  decide
theorem witness_StackBoundRaised_only :
    ∃ t, (machine 0x00#8 [(7, 0)] []).cause ≠ .stackBound ∧ exec (.push 0) (machine 0x00#8 [(7, 0)] []) = .next t ∧
      t.cause = .stackBound :=
  ⟨_, by decide, rfl, by decide⟩
theorem witness_FetchBoundRaised : -- one above and one at the bound
    rom ((machine 0xFE#8 [] [0x82#8]).memRead 0xFE#8) ≠ none ∧ 255 < (machine 0xFE#8 [] [0x82#8]).pc.toNat + 0x82 / 64 ∧
      rom ((machine 0xFD#8 [] [0x82#8]).memRead 0xFD#8) ≠ none ∧
      (machine 0xFD#8 [] [0x82#8]).pc.toNat + 0x82 / 64 ≤ 255 := by
  decide
theorem witness_UnknownOpcodeRaised :
    ∃ t, (machine 0xFF#8 [] []).run = .running ∧ (machine 0xFF#8 [] []).nextInput = .sample 0x00#8 none ∧
      serviceInterrupts (poll 0x00#8 none (machine 0xFF#8 [] []).takeInput) = .ok t ∧ rom (t.memRead t.pc) = none :=
  ⟨_, by decide, by decide, rfl, by decide⟩
theorem witness_StopsArePrecise_instruction :
    ∃ t, fits3.run = .running ∧ exec .hlt fits3 = .next t ∧ t.run ≠ .running := ⟨_, by decide, rfl, by decide⟩

/-- T-INT 6's start with its input. -/
def noRoom : State := withLines 0x01#8 (machine 0x12#8 [(5, 0x01#8), (7, 0x08#8)] [])

theorem witness_StopsArePrecise_entry :
    ∃ e, noRoom.run = .running ∧ noRoom.nextInput = .sample 0x01#8 none ∧
      serviceInterrupts (poll 0x01#8 none noRoom.takeInput) = .error e :=
  ⟨_, by decide, by decide, rfl⟩

/-- A halted machine. -/
def halted : State := { State.reset with run := .halted, cause := .haltInstruction, mem := [(0x00, 0x01#8)] }

theorem witness_StoppedMachineStays :
    halted.run ≠ .running ∧ halted.inputs = [] ∧ (withLines 0xFF#8 halted).run ≠ .running ∧
      (withLines 0xFF#8 halted).inputs = [.sample 0xFF#8 none] := by
  decide
theorem witness_LowestEnabledLineIsTaken : -- lines 0 and 7; then the two ways to do nothing
    (machine 0 [(5, 0xFF#8)] []).ie = true ∧
      ((machine 0 [(5, 0xFF#8)] []).im &&& ((machine 0 [(5, 0xFF#8)] []).pending ||| 0x81#8)).getLsbD 0 = true ∧
      ((machine 0 [(5, 0x80#8)] []).im &&& ((machine 0 [(5, 0x80#8)] []).pending ||| 0x81#8)).getLsbD 7 = true ∧
      (∀ m : Fin 8, m < 7 →
        ((machine 0 [(5, 0x80#8)] []).im &&& ((machine 0 [(5, 0x80#8)] []).pending ||| 0x81#8)).getLsbD m = false) ∧
      ((machine 0 [(5, 0xFF#8)] []).setIe false).ie = false ∧
      State.reset.im &&& (State.reset.pending ||| 0xFF#8) = 0x00#8 := by
  decide

/-- A state with exactly the room an entry needs (T-INT 7's pointer). -/
def room9 : State := machine 0x12#8 [(7, 0x09#8)] []

theorem witness_InterruptEntrySavesTheFrame : -- its last clause: no cell is below the frame, 0x09 is above it
    9 ≤ room9.x[(7 : Fin 8)].toNat ∧ room9.x[(7 : Fin 8)].toNat ≤ (0x09#8).toNat ∧
      (0x00#8).toNat + 9 < (machine 0x12#8 [(7, 0x0A#8)] []).x[(7 : Fin 8)].toNat := by
  decide
theorem witness_EntryThenIretRestores :
    ∃ t u : State, interruptEntry 7 room9 = .ok t ∧ u.x[(7 : Fin 8)] = t.x[(7 : Fin 8)] ∧
      ∀ k : Fin 9, u.memRead (t.x[(7 : Fin 8)] + BitVec.ofNat 8 k) = t.memRead (t.x[(7 : Fin 8)] + BitVec.ofNat 8 k) :=
  ⟨_, _, rfl, rfl, fun _ => rfl⟩

/-- An IRET inside a handler (T-IRET 1's pointer). -/
def handlerEnd : State := (machine 0x30#8 [(7, 0xEB#8)] [0x13#8]).setIe false

theorem witness_OnlyIretOrResetEnables :
    ∃ t, step handlerEnd = .next t ∧ handlerEnd.ie = false ∧ t.ie = true := by
  cases h : stateOf (step handlerEnd) with
  | none => exact absurd (congrArg Option.isSome h) (by decide)
  | some t =>
    have : (stateOf (step handlerEnd)).map State.ie = some true := by decide
    exact ⟨t, next_of_stateOf h, by decide, by simpa [h] using this⟩
theorem witness_OnlyCmpIretResetWriteFlags :
    ∃ t, step (machine 0 [] [0xA7#8, 0, 1]) = .next t ∧ t.fl ≠ (machine 0 [] [0xA7#8, 0, 1]).fl := by
  cases h : stateOf (step (machine 0 [] [0xA7#8, 0, 1])) with
  | none => exact absurd (congrArg Option.isSome h) (by decide)
  | some t =>
    have : (stateOf (step (machine 0 [] [0xA7#8, 0, 1]))).map State.fl = some 0b001#3 := by decide
    have : t.fl = 0b001#3 := Option.some.inj (by rwa [h] at this)
    exact ⟨t, next_of_stateOf h, this ▸ by decide⟩
theorem witness_OutputOnlyGrowsByPrn :
    ∃ t, step (machine 0 [] [0x47#8, 7]) = .next t ∧ (machine 0 [] [0x47#8, 7]).nextInput ≠ .rst := by
  cases h : stateOf (step (machine 0 [] [0x47#8, 7])) with
  | none => exact absurd (congrArg Option.isSome h) (by decide)
  | some t => exact ⟨t, next_of_stateOf h, by decide⟩

/-- A 3-byte instruction whose last byte stands at 0xFF. -/
def topInstr : State := machine 0xFD#8 [] [0x82#8, 0x00#8, 0x05#8]

theorem witness_StepRunsTheDecodedInstruction :
    ∃ t, topInstr.run = .running ∧ topInstr.nextInput = .sample 0x00#8 none ∧
      serviceInterrupts (poll 0x00#8 none topInstr.takeInput) = .ok t ∧
      decode [0x82#8, 0x00#8, 0x05#8] = .ok (.ldi 0x00#8 0x05#8, []) ∧
      ∀ k : Fin 3, t.pc.toNat + k ≤ 255 ∧ t.memRead (t.pc + BitVec.ofNat 8 k) = [0x82#8, 0x00#8, 0x05#8][k] :=
  ⟨_, by decide, by decide, rfl, rfl, by decide⟩
theorem witness_ResetFromAnyState : { halted with inputs := [.rst] }.inputs = .rst :: [] := by decide
theorem witness_EveryStepKeepsTheInvariant : ∃ t, State.reset.Inv ∧ step State.reset = .next t := by
  cases h : stateOf (step State.reset) with
  | none => exact absurd (congrArg Option.isSome h) (by decide)
  | some t => exact ⟨t, ⟨by decide, rfl, rfl⟩, next_of_stateOf h⟩
theorem witness_FrameOfFormsThatStoreNothing :
    ∃ t, Instr.mod 0 1 ≠ .push 0 ∧ Instr.mod 0 1 ≠ .call 0 ∧ (Instr.mod 0 1).operands = [0, 1] ∧
      exec (.mod 0 1) fits3 = .next t :=
  ⟨_, by decide, by decide, by decide, rfl⟩
theorem witness_FrameOfFormsThatStore : ∃ t u, exec (.push 7) fits2 = .next t ∧ exec (.call 7) fits2 = .next u :=
  ⟨_, _, rfl, rfl⟩
/-- A file of `n` byte lines has an image of `n` bytes. -/
theorem length_byteLines (n : Nat) :
    ((List.replicate n ((some 0xA5#8, none) : Option Byte × Option (Nat × List Char))).filterMap (·.1)).length = n := by
  simp

theorem witness_ImageLinesAreLoadedInOrder : -- the longest image, with its last cell; a short one, with the cell after it
    (∃ lines : List (Option Byte × Option (Nat × List Char)),
      (lines.filterMap (·.1)).length ≤ 256 ∧ 255 < (lines.filterMap (·.1)).length) ∧
    (([(some 0x01#8, some (0, "HLT".toList)), (none, none), (none, some (0, []))] :
        List (Option Byte × Option (Nat × List Char))).filterMap (·.1)).length ≤ (0x01#8).toNat :=
  ⟨⟨List.replicate 256 (some 0xA5#8, none), by rw [length_byteLines], by rw [length_byteLines]; decide⟩, by decide⟩

end Sys2Proof.Tests
end

section
/-! The reset value of each general register (10_state R23), and the obligation on registers and their aliases. -/

namespace Sys2Proof.Machine

/-- R23: after reset every general register is zero but the stack pointer, which is at `SP_INIT`. -/
@[simp] theorem State.reset_reg : ∀ r : Fin 8, State.reset.reg r = if r = 7 then 0xF4#8 else 0x00#8 := by decide

/-- Settles O7: the register table is `State.reset_reg`, and each alias is the register it names (R21). -/
theorem resetRegisters : Obligations.ResetRegisters := by
  unfold Obligations.ResetRegisters
  refine ⟨State.reset_reg, ?im, ?pending, ?sp⟩
  case im => rw [State.im_eq, State.reset_reg, if_neg (by decide)]
  case pending => rw [State.pending_eq, State.reset_reg, if_neg (by decide)]
  case sp => rw [State.sp_eq, State.reset_reg, if_pos rfl]

end Sys2Proof.Machine
end

section
/-! Memory reads after a write (20_memory R56), and the obligation on them. -/

namespace Sys2Proof.Machine

/-- R56 on the state: `Memory.read_write`, through the state's two accessors. -/
theorem State.memRead_memWrite (s : State) (a c v : Byte) :
    (s.memWrite a v).memRead c = if c = a then v else s.memRead c :=
  Memory.read_write s.mem a v c

/-- Settles O10: the reads are `State.memRead_memWrite`; the frame holds because a write updates the `mem` field alone. -/
theorem memoryReadAfterWrite : Obligations.MemoryReadAfterWrite := by
  unfold Obligations.MemoryReadAfterWrite
  intro s a c v
  refine ⟨?reads, ?frame⟩
  case reads => exact State.memRead_memWrite s a c v
  case frame => rfl

end Sys2Proof.Machine
end

section
/-! The loader's effect on memory (70_reset_and_hazards R222). -/

namespace Sys2Proof.Machine

/-- The loader writes memory and no other field. -/
theorem storeBytes_frame (image : List Byte) (addr : Nat) (s : State) :
    storeBytes addr image s = { s with mem := (storeBytes addr image s).mem } := by
  induction image generalizing addr s with
  | nil => rfl
  | cons v rest ih =>
    unfold storeBytes
    rw [ih]
    split <;> rfl

/-- A byte run that fits below 0x100 is read back from `addr` on, and every other cell keeps its byte. -/
theorem memRead_storeBytes (image : List Byte) (addr : Nat) (s : State) (c : Byte) (hfit : addr + image.length ≤ 256) :
    (storeBytes addr image s).memRead c =
      if addr ≤ c.toNat then image[c.toNat - addr]?.getD (s.memRead c) else s.memRead c := by
  induction image generalizing addr s with
  | nil => simp [storeBytes]
  | cons v rest ih =>
    rw [List.length_cons] at hfit
    have haddr : (BitVec.ofNat 8 addr).toNat = addr := Nat.mod_eq_of_lt (by omega)
    have hcell : c = BitVec.ofNat 8 addr ↔ c.toNat = addr := by rw [← BitVec.toNat_inj, haddr]
    rw [storeBytes, if_pos (by omega), ih _ _ (by omega), State.memRead_memWrite]
    rcases Nat.lt_trichotomy c.toNat addr with hlt | heq | hgt
    · have hne : c ≠ BitVec.ofNat 8 addr := fun h => hlt.ne (hcell.mp h)
      rw [if_neg (by omega), if_neg hne, if_neg (by omega)]
    · simp [heq, hcell]
    · have hne : c ≠ BitVec.ofNat 8 addr := fun h => hgt.ne' (hcell.mp h)
      obtain ⟨k, hk⟩ := Nat.exists_eq_add_of_lt hgt
      rw [if_pos (by omega), if_neg hne, if_pos (by omega), hk,
        show addr + k + 1 - addr = k + 1 by omega, show addr + k + 1 - (addr + 1) = k by omega, List.getElem?_cons_succ]

/-- An image that fits is loaded from address 0. -/
theorem loadImage_of_length_le {image : List Byte} (h : image.length ≤ 256) (s : State) :
    loadImage image s = some (storeBytes 0 image s) := if_pos h

/-- R222: the k-th byte of an image stands at address k after the load. -/
theorem memRead_storeBytes_zero_of_lt {image : List Byte} (hfit : image.length ≤ 256) (s : State) {k : Nat}
    (hk : k < image.length) : (storeBytes 0 image s).memRead (BitVec.ofNat 8 k) = image[k] := by
  have haddr : (BitVec.ofNat 8 k).toNat = k := Nat.mod_eq_of_lt (by omega)
  rw [memRead_storeBytes image 0 s _ (by omega), if_pos (Nat.zero_le _), haddr, Nat.sub_zero,
    List.getElem?_eq_getElem hk, Option.getD_some]

/-- R222: the cells above the image keep their bytes. -/
theorem memRead_storeBytes_zero_of_le {image : List Byte} (hfit : image.length ≤ 256) (s : State) {c : Byte}
    (hc : image.length ≤ c.toNat) : (storeBytes 0 image s).memRead c = s.memRead c := by
  rw [memRead_storeBytes image 0 s c (by omega), if_pos (Nat.zero_le _), Nat.sub_zero,
    List.getElem?_eq_none hc, Option.getD_none]

end Sys2Proof.Machine
end

section
/-! The lines of an image file (30_encoding R77), and the obligation on them. -/

namespace Sys2Proof.Machine

/-- The value read from the digit of a bit is the bit. -/
theorem binaryDigit_value (b : Bool) : (if (if b then '1' else '0') == '1' then 1 else 0) = b.toNat := by
  cases b <;> rfl

/-- Reading the digits of the low `k` bits of `n`, most significant first, appends these bits to what was read before. -/
theorem foldl_binaryDigits (n k acc : Nat) :
    ((List.range k).reverse.map fun i => if n.testBit i then '1' else '0').foldl
      (fun m c => 2 * m + (if c == '1' then 1 else 0)) acc = acc * 2 ^ k + n % 2 ^ k := by
  induction k generalizing acc with
  | zero => simp [Nat.mod_one]
  | succ k ih =>
    rw [List.range_succ, List.reverse_append, List.reverse_singleton, List.singleton_append, List.map_cons,
      List.foldl_cons, ih, binaryDigit_value, Nat.mod_pow_succ, ← Nat.toNat_testBit]
    ring

/-- A byte line is written with binary digits only. -/
theorem mem_byteLine {v : Byte} {c : Char} (h : c ∈ byteLine v) : c = '0' ∨ c = '1' := by
  obtain ⟨k, -, rfl⟩ := List.mem_map.mp h
  cases v.getLsbD k
  · exact .inl rfl
  · exact .inr rfl

/-- A byte line is read as the byte it was written for. -/
theorem byteOfDigits_byteLine (v : Byte) : byteOfDigits (byteLine v) = some v := by
  have hdigits : (byteLine v).all (fun c => c == '0' || c == '1') = true :=
    List.all_eq_true.mpr fun c hc => by simpa using mem_byteLine hc
  have hvalue : (byteLine v).foldl (fun n c => 2 * n + (if c == '1' then 1 else 0)) 0 = v.toNat := by
    have h := foldl_binaryDigits v.toNat 8 0
    rwa [Nat.zero_mul, Nat.zero_add, Nat.mod_eq_of_lt v.isLt] at h
  rw [byteOfDigits, if_pos ⟨rfl, hdigits⟩, hvalue, BitVec.ofNat_toNat, BitVec.setWidth_eq]

/-- The part of an image line before the blanks and the comment is a byte line or empty: binary digits only. -/
theorem mem_imageLine_none {byte : Option Byte} {c : Char} (h : c ∈ imageLine byte none) : c = '0' ∨ c = '1' := by
  cases byte with
  | none => exact absurd h List.not_mem_nil
  | some v => exact mem_byteLine h

/-- The comment of an image line starts at its first `#`: before it stand the digits and the blanks. -/
theorem takeWhile_imageLine (byte : Option Byte) (comment : Option (Nat × List Char)) :
    ∃ blanks : Nat, (imageLine byte comment).takeWhile (· != '#') = imageLine byte none ++ List.replicate blanks ' ' := by
  have hdigits : ∀ c ∈ imageLine byte none, (c != '#') = true := fun c hc => by
    rcases mem_imageLine_none hc with rfl | rfl <;> rfl
  cases comment with
  | none =>
    refine ⟨0, ?_⟩
    rw [List.replicate_zero, List.append_nil, List.takeWhile_eq_self_iff]
    exact hdigits
  | some comment =>
    obtain ⟨blanks, text⟩ := comment
    have hline : imageLine byte (some (blanks, text)) =
        imageLine byte none ++ (List.replicate blanks ' ' ++ '#' :: text) := rfl
    refine ⟨blanks, ?_⟩
    rw [hline, List.takeWhile_append_of_pos hdigits,
      List.takeWhile_append_of_pos fun c hc => by rw [List.eq_of_mem_replicate hc]; rfl,
      List.takeWhile_cons_of_neg (by decide), List.append_nil]

/-- Characters none of which is white space stay when white space is dropped in front of them. -/
theorem dropWhile_isWhitespace_eq_self {text : List Char} (h : ∀ c ∈ text, c.isWhitespace = false) :
    text.dropWhile Char.isWhitespace = text := by
  cases text with
  | nil => rfl
  | cons c rest => rw [List.dropWhile_cons_of_neg (by simp [h])]

/-- Blanks are dropped in front of a text. -/
theorem dropWhile_isWhitespace_blanks_append (blanks : Nat) (text : List Char) :
    (List.replicate blanks ' ' ++ text).dropWhile Char.isWhitespace = text.dropWhile Char.isWhitespace :=
  List.dropWhile_append_of_pos fun c hc => by rw [List.eq_of_mem_replicate hc]; rfl

/-- Stripping keeps a text without white space and drops the blanks and the comment after it. -/
theorem stripLine_of_takeWhile {line text : List Char} {blanks : Nat} (h : ∀ c ∈ text, c.isWhitespace = false)
    (hline : line.takeWhile (· != '#') = text ++ List.replicate blanks ' ') : stripLine line = text := by
  unfold stripLine
  rw [hline]
  cases text with
  | nil =>
    have hblanks := dropWhile_isWhitespace_blanks_append blanks []
    rw [List.append_nil] at hblanks
    rw [List.nil_append, hblanks]
    rfl
  | cons c rest =>
    have hreverse : ∀ d ∈ (c :: rest).reverse, d.isWhitespace = false := fun d hd => h d (List.mem_reverse.mp hd)
    rw [List.cons_append, List.dropWhile_cons_of_neg (by simp [h]), ← List.cons_append, List.reverse_append,
      List.reverse_replicate, dropWhile_isWhitespace_blanks_append, dropWhile_isWhitespace_eq_self hreverse,
      List.reverse_reverse]

/-- R77: what is read of an image line is the line without blanks and comment. -/
theorem stripLine_imageLine (byte : Option Byte) (comment : Option (Nat × List Char)) :
    stripLine (imageLine byte comment) = imageLine byte none := by
  obtain ⟨blanks, hline⟩ := takeWhile_imageLine byte comment
  refine stripLine_of_takeWhile (fun c hc => ?_) hline
  rcases mem_imageLine_none hc with rfl | rfl <;> rfl

/-- A line with nothing but blanks and a comment is skipped (R77). -/
theorem imageOfLines_cons_of_blank {line : List Char} (rest : List (List Char)) (h : stripLine line = []) :
    imageOfLines (line :: rest) = imageOfLines rest := by
  rw [imageOfLines, h]

/-- A line that strips to a byte line puts its byte in front of the image of the lines after it (R77). -/
theorem imageOfLines_cons_of_byteLine {line : List Char} {rest : List (List Char)} {v : Byte} {image : List Byte}
    (h : stripLine line = byteLine v) (hrest : imageOfLines rest = some image) :
    imageOfLines (line :: rest) = some (v :: image) := by
  have hne : byteLine v ≠ [] := List.cons_ne_nil _ _
  rw [imageOfLines, h]
  split
  · exact absurd ‹_› hne
  · rw [byteOfDigits_byteLine, hrest]

/-- R77: a text of image lines is read as its bytes in the order of the lines. -/
theorem imageOfLines_imageLine (lines : List (Option Byte × Option (Nat × List Char))) :
    imageOfLines (lines.map fun l => imageLine l.1 l.2) = some (lines.filterMap (·.1)) := by
  induction lines with
  | nil => rfl
  | cons l lines ih =>
    obtain ⟨byte, comment⟩ := l
    have hstrip := stripLine_imageLine byte comment
    cases byte with
    | none => exact (imageOfLines_cons_of_blank _ hstrip).trans ih
    | some v => exact imageOfLines_cons_of_byteLine hstrip ih

/-- Settles O60: the text is read by `imageOfLines_imageLine`, and the loaded state is that of `storeBytes` at address 0. -/
theorem imageLinesAreLoadedInOrder : Obligations.ImageLinesAreLoadedInOrder := by
  unfold Obligations.ImageLinesAreLoadedInOrder
  intro lines s hfit
  refine ⟨imageOfLines_imageLine lines, _, loadImage_of_length_le hfit s, storeBytes_frame _ 0 s, ?image, ?above⟩
  case image => exact fun k hk => memRead_storeBytes_zero_of_lt hfit s hk
  case above => exact fun c hc => memRead_storeBytes_zero_of_le hfit s hc

end Sys2Proof.Machine
end

section
/-! The choice of the interrupt line in phase I (40_fetch_decode_dispatch R103, 60_exceptions R194), and the obligation
on it. -/

namespace Sys2Proof.Machine

/-- R6: `lowest_set_bit(m)` is the set bit below which no bit is set. -/
theorem lowestSetBit_eq {m : Byte} {n : Fin 8} (hset : m.getLsbD n = true)
    (hlow : ∀ k : Fin 8, k < n → m.getLsbD k = false) : lowestSetBit m = n := by
  have hlines : ([0, 1, 2, 3, 4, 5, 6, 7] : List (Fin 8)) = List.finRange 8 := rfl
  have hfirst : (List.finRange 8).find? (fun k => m.getLsbD k.val) = some n := by
    rw [← Fin.find?_eq_find?_finRange]
    exact Fin.find?_eq_some_iff.mpr ⟨hset, hlow⟩
  rw [lowestSetBit, hlines, hfirst, Option.getD_some]

/-- A word with a set bit is not zero. -/
theorem ne_zero_of_getLsbD {m : Byte} {k : Nat} (hset : m.getLsbD k = true) : m ≠ 0x00#8 := by
  rintro rfl
  simp at hset

/-- R102: after phase P the pending register holds what was pending and what `irq_in` signals. -/
theorem pending_poll (irqIn : Byte) (kbdWrite : Option Byte) (s : State) :
    (poll irqIn kbdWrite s).pending = s.pending ||| irqIn := by
  cases kbdWrite with
  | none => exact State.reg_setReg_self s 6 _
  | some key => exact State.reg_setReg_self (s.memWrite Config.kbdAddr key) 6 _

/-- R103: the lines phase I chooses from are those of the mask and of the pending register after the poll. -/
theorem enabledLines_poll (irqIn : Byte) (kbdWrite : Option Byte) (s : State) :
    (poll irqIn kbdWrite s).enabledLines = s.im &&& (s.pending ||| irqIn) := by
  have him : (poll irqIn kbdWrite s).im = s.im := (poll_polled s irqIn kbdWrite).reg 5 (by decide)
  rw [State.enabledLines, him, pending_poll]

/-- R103, R194: with interrupts active, phase I enters an enabled line below which no line is enabled. -/
theorem serviceInterrupts_of_lowest {s : State} {n : Fin 8} (hie : s.ie = true)
    (hset : s.enabledLines.getLsbD n = true) (hlow : ∀ k : Fin 8, k < n → s.enabledLines.getLsbD k = false) :
    serviceInterrupts s = interruptEntry n s := by
  rw [serviceInterrupts, if_pos ⟨hie, ne_zero_of_getLsbD hset⟩, lowestSetBit_eq hset hlow]

/-- R103: with interrupts inactive or no line enabled, phase I does nothing. -/
theorem serviceInterrupts_of_idle {s : State} (hidle : s.ie = false ∨ s.enabledLines = 0x00#8) :
    serviceInterrupts s = .ok s := by
  rw [serviceInterrupts, if_neg]
  rintro ⟨hie, hlines⟩
  rcases hidle with hoff | hnone
  · exact Bool.false_ne_true (hoff.symm.trans hie)
  · exact hlines hnone

/-- Settles O47: the poll keeps `IE` and leaves the lines of `enabledLines_poll`; the two clauses are then the two laws
of phase I, `serviceInterrupts_of_lowest` and `serviceInterrupts_of_idle`. -/
theorem lowestEnabledLineIsTaken : Obligations.LowestEnabledLineIsTaken := by
  unfold Obligations.LowestEnabledLineIsTaken
  intro s irqIn kbdWrite
  rw [← enabledLines_poll irqIn kbdWrite s, ← (poll_polled s irqIn kbdWrite).ie]
  refine ⟨?lowest, ?idle⟩
  case lowest => exact fun n hie hset hlow => serviceInterrupts_of_lowest hie hset hlow
  case idle => exact serviceInterrupts_of_idle

end Sys2Proof.Machine
end

section
/-! The next state of the two-register forms, of CMP and of a jump where the instruction fits (41_alu R120, R132;
44_jumps R161, R162), the values of the ALU's operations, and the obligation on the source's two testable properties
(R134). -/

namespace Sys2Proof.Machine

/-! ## Instructions that fit -/

/-- R120: a fitting instruction of format RR leaves the operation of both old values in its first register. -/
theorem twoRegisters_next (f : Byte → Byte → Byte) {s : State} (a b : Fin 8) (hfit : s.pc.toNat + 3 ≤ 255) :
    twoRegisters f (regByte a) (regByte b) s =
      .next ((s.setReg a (f (s.reg a) (s.reg b))).setPc (s.pc + 3#8)) := by
  have hadv := advance_of_le (s.setReg a (f (s.reg a) (s.reg b))) hfit
  simp [twoRegisters, hadv, runPhase]

/-- `twoRegisters_next`, for a claim about the first register alone. -/
theorem exists_twoRegisters_next (f : Byte → Byte → Byte) {s : State} (a b : Fin 8) (hfit : s.pc.toNat + 3 ≤ 255) :
    ∃ t, twoRegisters f (regByte a) (regByte b) s = .next t ∧ t.x[a] = f s.x[a] s.x[b] :=
  ⟨_, twoRegisters_next f a b hfit, State.reg_setReg_self s a _⟩

/-- R132: a fitting CMP writes the flags of the comparison. -/
theorem execCmp_next {s : State} (a b : Fin 8) (hfit : s.pc.toNat + 3 ≤ 255) :
    execCmp (regByte a) (regByte b) s =
      .next ((s.setFl (compareFlags (s.reg a) (s.reg b))).setPc (s.pc + 3#8)) := by
  have hadv := advance_of_le (s.setFl (compareFlags (s.reg a) (s.reg b))) hfit
  simp [execCmp, hadv, runPhase]

/-- R161, R162: a fitting jump writes `pc` alone, with the register's value or the address of the next instruction. -/
theorem jumpIf_next (taken : Bool) {s : State} (c : Fin 8) (hfit : s.pc.toNat + 2 ≤ 255) :
    jumpIf taken (regByte c) s = .next (s.setPc (if taken then s.reg c else s.pc + 2#8)) := by
  have hadv := advance_of_le s hfit
  cases taken <;> simp [jumpIf, hadv, runPhase]

/-- R162: a fitting JNE takes the branches of the E bit the other way round. -/
theorem execJne_next {s : State} (c : Fin 8) (hfit : s.pc.toNat + 2 ≤ 255) :
    execJne (regByte c) s = .next (s.setPc (if s.flagE then s.pc + 2#8 else s.reg c)) := by
  rw [execJne, jumpIf_next _ c hfit]
  cases s.flagE <;> rfl

/-! ## The values of the operations (41_alu R121 to R124, R133) -/

theorem wrapAdd_toNat (va vb : Byte) : (wrapAdd va vb).toNat = (va.toNat + vb.toNat) % 256 :=
  BitVec.toNat_add va vb

theorem wrapSub_toNat (va vb : Byte) : ((wrapSub va vb).toNat : Int) = ((va.toNat : Int) - (vb.toNat : Int)) % 256 := by
  have hb := vb.isLt
  rw [wrapSub, BitVec.toNat_sub]
  omega

theorem wrapMul_toNat (va vb : Byte) : (wrapMul va vb).toNat = va.toNat * vb.toNat % 256 :=
  BitVec.toNat_mul va vb

/-- R132: each flag bit of a comparison is one case of the unsigned order. -/
theorem compareFlags_getLsbD (va vb : Byte) :
    (compareFlags va vb).getLsbD 0 = decide (va.toNat = vb.toNat) ∧
      (compareFlags va vb).getLsbD 1 = decide (va.toNat > vb.toNat) ∧
        (compareFlags va vb).getLsbD 2 = decide (va.toNat < vb.toNat) := by
  simp only [compareFlags, ← BitVec.toNat_inj]
  rcases Nat.lt_trichotomy va.toNat vb.toNat with hlt | heq | hgt
  · simp [hlt, hlt.ne, hlt.not_gt]
  · simp [heq]
  · simp [hgt, hgt.ne', hgt.not_gt]

/-! ## The obligation -/

/-- Settles O25: (a) is `exists_twoRegisters_next` with the value of each operation; (b) is `execCmp_next` with the flag
bits of `compareFlags_getLsbD`, then `jumpIf_next` and `execJne_next` from the state the CMP leaves, three bytes on. -/
theorem aluTestableProperties : Obligations.AluTestableProperties := by
  unfold Obligations.AluTestableProperties
  refine ⟨fun s a b hfit => ⟨?add, ?sub, ?and, ?or, ?xor, ?mul⟩, fun s a b c hfit => ?compare⟩
  case add =>
    obtain ⟨t, ht, hx⟩ := exists_twoRegisters_next wrapAdd a b hfit
    exact ⟨t, ht, hx ▸ wrapAdd_toNat _ _⟩
  case sub =>
    obtain ⟨t, ht, hx⟩ := exists_twoRegisters_next wrapSub a b hfit
    exact ⟨t, ht, hx ▸ wrapSub_toNat _ _⟩
  case and =>
    obtain ⟨t, ht, hx⟩ := exists_twoRegisters_next (· &&& ·) a b hfit
    exact ⟨t, ht, fun k => hx ▸ BitVec.getLsbD_and⟩
  case or =>
    obtain ⟨t, ht, hx⟩ := exists_twoRegisters_next (· ||| ·) a b hfit
    exact ⟨t, ht, fun k => hx ▸ BitVec.getLsbD_or⟩
  case xor =>
    obtain ⟨t, ht, hx⟩ := exists_twoRegisters_next (· ^^^ ·) a b hfit
    exact ⟨t, ht, fun k => hx ▸ BitVec.getLsbD_xor⟩
  case mul =>
    obtain ⟨t, ht, hx⟩ := exists_twoRegisters_next wrapMul a b hfit
    exact ⟨t, ht, hx ▸ wrapMul_toNat _ _⟩
  case compare =>
    obtain ⟨hE, hG, hL⟩ := compareFlags_getLsbD (s.reg a) (s.reg b)
    have hpc : (s.pc + 3#8).toNat + 2 ≤ 255 := by
      rw [BitVec.toNat_add, BitVec.toNat_ofNat]
      omega
    have hnext : s.pc + 3#8 + 2#8 = s.pc + 5#8 := BitVec.add_assoc ..
    refine ⟨_, execCmp_next a b (by omega), hE, hG, hL, ⟨_, jumpIf_next _ c hpc, ?jeq⟩, ⟨_, execJne_next c hpc, ?jne⟩⟩
    case jeq => rw [State.setPc_pc, State.setPc_pc, hnext]; rfl
    case jne => rw [State.setPc_pc, State.setPc_pc, hnext]; rfl

end Sys2Proof.Machine
end

section
/-! Stops of an instruction (60_exceptions R181, R188): the state a stopped phase X leaves, and the only way an
instruction can bring a cause into `CAUSE`. -/

namespace Sys2Proof.Machine

/-- R188: a phase X that stops leaves the state it started from, with the diagnostic registers of the stop. -/
theorem runPhase_error (s : State) (e : Stop) :
    runPhase s (.error e) = .next (s.stoppedWith e.run e.cause e.einfo) := rfl

/-- R109, R185: an advance beyond 0xFF stops phase X with PcBound, whatever the handler wrote before it. -/
theorem runPhase_advance_of_gt {s t : State} {n : Nat} (hpc : t.pc = s.pc) (hgt : 255 < s.pc.toNat + n) :
    runPhase s (advance n t) = .next (s.stoppedWith .faulted .pcBound (BitVec.ofNat 8 n)) := by
  rw [advance_of_gt t (hpc ▸ hgt), runPhase_error]
  rfl

/-- An instruction after which `CAUSE` holds something new has stopped, in one of the ways of `StopOf` and with that
cause: a completed instruction keeps `CAUSE`. -/
theorem stopOf_of_new_cause {i : Instr} {s t : State} (hnew : s.cause ≠ t.cause) (hexec : exec i s = .next t) :
    ∃ e, StopOf i s e ∧ e.cause = t.cause := by
  obtain ⟨u, hu, hdone⟩ | ⟨e, he, hstop⟩ := exec_cases i s
  · obtain rfl := Host.Outcome.next.inj (hu.symm.trans hexec)
    exact absurd hdone.cause.symm hnew
  · obtain rfl := Host.Outcome.next.inj (he.symm.trans hexec)
    exact ⟨e, hstop, rfl⟩

end Sys2Proof.Machine
end

section
/-! DivideByZero (60_exceptions R183, 41_alu R131). -/

namespace Sys2Proof.Machine

/-- R131, R183: a zero divisor halts before anything is written and before the advance. -/
theorem execMod_of_zero {s : State} (a : Fin 8) {b : Fin 8} (hzero : s.reg b = 0x00#8) :
    execMod (regByte a) (regByte b) s = .next (s.stoppedWith .halted .divideByZero 0x00#8) := by
  simp only [execMod, registerOperand_regByte, ok_bind, hzero, if_true]
  rfl

/-- R183: the only stop with cause DivideByZero is that of a MOD whose divisor is zero. -/
theorem StopOf.of_divideByZero {i : Instr} {s : State} {e : Stop} (hstop : StopOf i s e)
    (hcause : e.cause = .divideByZero) : ∃ a b : Fin 8, i = .mod (regByte a) (regByte b) ∧ s.reg b = 0x00#8 := by
  cases hstop with
  | divideByZero a b hi hzero => exact ⟨a, b, hi, hzero⟩
  | hlt | registerIndex | pcBound | stackBound => cases hcause

/-- Settles O24: the halt is `execMod_of_zero`; a cause that is new comes from a stop (`stopOf_of_new_cause`), and
`StopOf.of_divideByZero` says from which. -/
theorem divideByZeroHalts : Obligations.DivideByZeroHalts := by
  unfold Obligations.DivideByZeroHalts
  refine ⟨fun s a b hzero => execMod_of_zero a hzero, fun i s t hold hexec hcause => ?only⟩
  case only =>
    obtain ⟨e, hstop, he⟩ := stopOf_of_new_cause (hcause ▸ hold) hexec
    exact ⟨by rw [hcause]; rfl, hstop.of_divideByZero (he.trans hcause)⟩

end Sys2Proof.Machine
end

section
/-! PcBound (60_exceptions R185, 40_fetch_decode_dispatch R109): each form that ends beyond the last address, and the
obligation on who raises it. -/

namespace Sys2Proof.Machine

/-! ## Three bytes -/

section
variable {s : State} (a b : Fin 8) (hgt : 255 < s.pc.toNat + 3)
include hgt

theorem twoRegisters_of_gt (f : Byte → Byte → Byte) :
    twoRegisters f (regByte a) (regByte b) s = .next (s.stoppedWith .faulted .pcBound 0x03#8) := by
  rw [twoRegisters, registerOperand_regByte, registerOperand_regByte]
  exact runPhase_advance_of_gt rfl hgt

theorem registerLiteral_of_gt (f : Byte → Byte → Byte) (v : Byte) :
    registerLiteral f (regByte a) v s = .next (s.stoppedWith .faulted .pcBound 0x03#8) := by
  rw [registerLiteral, registerOperand_regByte]
  exact runPhase_advance_of_gt rfl hgt

theorem execCmp_of_gt : execCmp (regByte a) (regByte b) s = .next (s.stoppedWith .faulted .pcBound 0x03#8) := by
  rw [execCmp, registerOperand_regByte, registerOperand_regByte]
  exact runPhase_advance_of_gt rfl hgt

theorem execMod_of_gt (hdiv : s.reg b ≠ 0x00#8) :
    execMod (regByte a) (regByte b) s = .next (s.stoppedWith .faulted .pcBound 0x03#8) := by
  simp only [execMod, registerOperand_regByte, ok_bind, hdiv, if_false]
  exact runPhase_advance_of_gt rfl hgt

end

/-! ## Two bytes -/

section
variable {s : State} (a : Fin 8) (hgt : 255 < s.pc.toNat + 2)
include hgt

theorem execPrn_of_gt : execPrn (regByte a) s = .next (s.stoppedWith .faulted .pcBound 0x02#8) := by
  rw [execPrn, registerOperand_regByte]
  exact runPhase_advance_of_gt rfl hgt

theorem execNot_of_gt : execNot (regByte a) s = .next (s.stoppedWith .faulted .pcBound 0x02#8) := by
  rw [execNot, registerOperand_regByte]
  exact runPhase_advance_of_gt rfl hgt

/-- R152, R189: the return address is tested before the stack pointer. -/
theorem execCall_of_gt : execCall (regByte a) s = .next (s.stoppedWith .faulted .pcBound 0x02#8) := by
  rw [execCall, registerOperand_regByte, ok_bind, if_pos hgt]
  exact runPhase_error s _

theorem execPush_of_gt (hroom : s.reg 7 ≠ 0x00#8) :
    execPush (regByte a) s = .next (s.stoppedWith .faulted .pcBound 0x02#8) := by
  rw [execPush, registerOperand_regByte, predecrement_eq, if_neg hroom]
  exact runPhase_advance_of_gt rfl hgt

/-- R161, R162: a jump that is not taken advances. -/
theorem jumpIf_false_of_gt : jumpIf false (regByte a) s = .next (s.stoppedWith .faulted .pcBound 0x02#8) := by
  rw [jumpIf, registerOperand_regByte]
  exact runPhase_advance_of_gt rfl hgt

/-- R151: POP advances once both tests of the pointer are passed, the second on what POP R7 has just written. -/
theorem execPop_of_gt (hroom : s.reg 7 ≠ 0xFF#8) (hpopped : a = 7 → s.memRead (s.reg 7) ≠ 0xFF#8) :
    execPop (regByte a) s = .next (s.stoppedWith .faulted .pcBound 0x02#8) := by
  have hroom' : (s.setReg a (s.memRead (s.reg 7))).reg 7 ≠ 0xFF#8 := by
    rw [State.reg_setReg]
    split_ifs with h7
    · exact hpopped h7.symm
    · exact hroom
  rw [execPop, registerOperand_regByte, ok_bind, State.sp_eq, if_neg hroom, postincrement_eq, if_neg hroom']
  exact runPhase_advance_of_gt rfl hgt

end

/-! ## Who raises it, and that no advance wraps -/

/-- R185: HLT and a MOD dividing by zero never stop with PcBound. -/
theorem StopOf.of_pcBound {i : Instr} {s : State} {e : Stop} (hstop : StopOf i s e) (hcause : e.cause = .pcBound) :
    i ≠ .hlt ∧ ∀ a b : Fin 8, i = .mod (regByte a) (regByte b) → s.reg b ≠ 0x00#8 := by
  cases hstop with
  | pcBound n _ _ _ hhlt hmod => exact ⟨hhlt, hmod⟩
  | hlt | registerIndex | divideByZero | stackBound => cases hcause

/-- R25, R109: an instruction that does not position `pc` itself never lowers it; a stopped one keeps it. -/
theorem exec_pc_le {i : Instr} {s t : State} (hseq : setsPc i.opcode.byte = false) (hexec : exec i s = .next t) :
    s.pc.toNat ≤ t.pc.toNat := by
  obtain ⟨u, hu, hdone⟩ | ⟨e, he, -⟩ := exec_cases i s
  · obtain rfl := Host.Outcome.next.inj (hu.symm.trans hexec)
    have hpc := hdone.pc hseq
    omega
  · obtain rfl := Host.Outcome.next.inj (he.symm.trans hexec)
    rw [State.stop_pc]

/-- Settles O40: the law of each form at the address where it no longer fits, then `StopOf.of_pcBound` for a cause that
is new, and `exec_pc_le`. -/
theorem pcBoundRaised : Obligations.PcBoundRaised := by
  unfold Obligations.PcBoundRaised
  refine ⟨fun s a b v hpc => ?three, fun s a hpc => ?two, fun i s t hold hexec hcause => ?only,
    fun i s t hseq hexec => exec_pc_le hseq hexec⟩
  case three =>
    have hgt : 255 < s.pc.toNat + 3 := by omega
    have hlit := fun f => registerLiteral_of_gt a hgt f v
    have halu := twoRegisters_of_gt a b hgt
    simp only [List.forall_mem_cons]
    exact ⟨⟨hlit (fun _ v => v), hlit wrapAdd, halu wrapAdd, halu wrapSub, halu wrapMul, execCmp_of_gt a b hgt,
      halu (· &&& ·), halu (· ||| ·), halu (· ^^^ ·), halu shiftLeft, halu shiftRight, List.forall_mem_nil _⟩,
      execMod_of_gt a b hgt⟩
  case two =>
    have hgt : 255 < s.pc.toNat + 2 := by omega
    have hjump := jumpIf_false_of_gt a hgt
    simp only [List.forall_mem_cons]
    refine ⟨⟨execPrn_of_gt a hgt, execNot_of_gt a hgt, execCall_of_gt a hgt, List.forall_mem_nil _⟩,
      execPush_of_gt a hgt, execPop_of_gt a hgt, fun hE => ?jeq, fun hE => ?jne⟩
    case jeq => rwa [← hE] at hjump
    case jne =>
      have hnot : (!s.flagE) = false := by rw [hE, Bool.not_true]
      rwa [← hnot] at hjump
  case only =>
    obtain ⟨e, hstop, he⟩ := stopOf_of_new_cause (hcause ▸ hold) hexec
    exact hstop.of_pcBound (he.trans hcause)

end Sys2Proof.Machine
end

section
/-! StackBound (60_exceptions R187, 20_memory R57): each form at its bound, and the obligation on who raises it. -/

namespace Sys2Proof.Machine

/-! ## Pushes at 0x00 -/

theorem execPush_of_sp_zero {s : State} (a : Fin 8) (hsp : s.reg 7 = 0x00#8) :
    execPush (regByte a) s = .next (s.stoppedWith .faulted .stackBound 0x00#8) := by
  rw [execPush, registerOperand_regByte, predecrement_eq, if_pos hsp]
  exact runPhase_error s _

/-- R152: a CALL whose return address is a byte goes on to the push. -/
theorem execCall_of_sp_zero {s : State} (a : Fin 8) (hsp : s.reg 7 = 0x00#8) (hfit : s.pc.toNat + 2 ≤ 255) :
    execCall (regByte a) s = .next (s.stoppedWith .faulted .stackBound 0x00#8) := by
  rw [execCall, registerOperand_regByte, ok_bind, if_neg (Nat.not_lt.mpr hfit), push_eq, if_pos hsp]
  exact runPhase_error s _

/-! ## Pops at 0xFF -/

theorem execPop_of_sp_max {s : State} (a : Fin 8) (hsp : s.reg 7 = 0xFF#8) :
    execPop (regByte a) s = .next (s.stoppedWith .faulted .stackBound 0xFF#8) := by
  rw [execPop, registerOperand_regByte, ok_bind, State.sp_eq, if_pos hsp]
  exact runPhase_error s _

theorem execRet_of_sp_max {s : State} (hsp : s.reg 7 = 0xFF#8) :
    execRet s = .next (s.stoppedWith .faulted .stackBound 0xFF#8) := by
  rw [execRet, pop_eq, if_pos hsp]
  exact runPhase_error s _

/-- R151: the increment of a POP R7 is tested on the popped value. -/
theorem execPop_sp_of_popped_max {s : State} (hpopped : s.memRead (s.reg 7) = 0xFF#8) :
    execPop (regByte 7) s = .next (s.stoppedWith .faulted .stackBound 0xFF#8) := by
  by_cases hsp : s.reg 7 = 0xFF#8
  · exact execPop_of_sp_max 7 hsp
  · rw [execPop, registerOperand_regByte, ok_bind, State.sp_eq, if_neg hsp, postincrement_eq,
      State.reg_setReg_self, if_pos hpopped]
    exact runPhase_error s _

/-! ## IRET -/

/-- R170, R57: nine pops complete only where the pointer has room for nine. -/
theorem sp_le_of_interruptReturn_ok {s t : State} (hret : interruptReturn s = .ok t) : (s.reg 7).toNat ≤ 0xF6 := by
  obtain ⟨u, hu, hret⟩ := bind_eq_ok.mp hret
  obtain ⟨⟨f, v⟩, hv, hret⟩ := bind_eq_ok.mp hret
  obtain ⟨⟨p, w⟩, hw, -⟩ := bind_eq_ok.mp hret
  have hregs : (u.reg 7).toNat = (s.reg 7).toNat + 7 := popRegs_sp s (by decide) hu
  have hfl : (v.reg 7).toNat = (u.reg 7).toNat + 1 := pop_sp u hv
  have hpc : (w.reg 7).toNat = (v.reg 7).toNat + 1 := pop_sp (v.setFl (f.setWidth 3)) hw
  have hbyte := (w.reg 7).isLt
  omega

theorem execIret_of_sp_gt {s : State} (hsp : 0xF6 < (s.reg 7).toNat) :
    execIret s = .next (s.stoppedWith .faulted .stackBound 0xFF#8) := by
  rw [execIret]
  cases hret : interruptReturn s with
  | ok t => exact absurd (sp_le_of_interruptReturn_ok hret) (Nat.not_le.mpr hsp)
  | error e =>
    obtain rfl := interruptReturn_error hret
    exact runPhase_error s _

/-! ## Who raises it -/

/-- R187: the instructions that can stop with StackBound. -/
theorem StopOf.of_stackBound {i : Instr} {s : State} {e : Stop} (hstop : StopOf i s e)
    (hcause : e.cause = .stackBound) :
    i = .ret ∨ i = .iret ∨ ∃ a : Fin 8, i = .push (regByte a) ∨ i = .pop (regByte a) ∨ i = .call (regByte a) := by
  cases hstop with
  | stackBound p _ hi => exact hi
  | hlt | registerIndex | divideByZero | pcBound => cases hcause

/-- Settles O41: the law of each form at its bound, `interruptEntry_of_lt` for phase I, and `StopOf.of_stackBound` for a
cause that is new. -/
theorem stackBoundRaised : Obligations.StackBoundRaised := by
  unfold Obligations.StackBoundRaised
  refine ⟨fun s a hsp => ⟨execPush_of_sp_zero a hsp, execCall_of_sp_zero a hsp⟩,
    fun s a hsp => ⟨execPop_of_sp_max a hsp, execRet_of_sp_max hsp⟩, fun s hpopped => execPop_sp_of_popped_max hpopped,
    fun s hsp => execIret_of_sp_gt hsp, fun s n hsp => interruptEntry_of_lt s n hsp,
    fun i s t hold hexec hcause => ?only⟩
  case only =>
    obtain ⟨e, hstop, he⟩ := stopOf_of_new_cause (hcause ▸ hold) hexec
    exact hstop.of_stackBound (he.trans hcause)

end Sys2Proof.Machine
end

section
/-! UnknownOpcode (60_exceptions R182, 40_fetch_decode_dispatch R107), at the step that fetches the byte. -/

namespace Sys2Proof.Machine

/-- R101: a running machine whose phase I completes goes on to phase X. -/
theorem step_of_serviced {s t : State} {irqIn : Byte} {kbdWrite : Option Byte} (hrun : s.run = .running)
    (hin : s.nextInput = .sample irqIn kbdWrite)
    (hserv : serviceInterrupts (poll irqIn kbdWrite s.takeInput) = .ok t) : step s = executePhase t := by
  simp only [step, hin, transaction, State.takeInput_run, hrun, runningStep, hserv]

/-- R107: the fetch of a byte that is no opcode stops phase X, whatever bytes follow and also where none does. -/
theorem executePhase_of_unknown {s : State} (hrom : rom (s.memRead s.pc) = none) :
    executePhase s = .next (s.stoppedWith .faulted .unknownOpcode (s.memRead s.pc)) := by
  simp only [executePhase, fetch, decodeOp_of_none hrom, fetchStop]
  rfl

/-- Settles O43: the step is its phase X (`step_of_serviced`), which the unknown byte stops. -/
theorem unknownOpcodeRaised : Obligations.UnknownOpcodeRaised := by
  unfold Obligations.UnknownOpcodeRaised
  intro s t irqIn kbdWrite hrun hin hserv hrom
  rw [step_of_serviced hrun hin hserv, executePhase_of_unknown hrom]

end Sys2Proof.Machine
end

section
/-! The round trip between instructions and bytes (30_encoding R70 to R75), and the obligations on it. -/

namespace Sys2Proof

/-- R70, R73: the decoder reads an encoding back, whatever its operand bytes are and whatever follows; the three cases
are the three formats. -/
theorem decode_encode_append (i : Instr) (rest : List Byte) : decode (encode i ++ rest) = .ok (i, rest) := by
  have hn := Laws.nops_opcode i
  cases i with
  | hlt | ret | iret => exact decodeOp_zero _ hn rest
  | push a | pop a | prn a | call a | jmp a | jeq a | jne a | not a => exact decodeOp_one _ hn a rest
  | ldi a b | add a b | sub a b | mul a b | mod a b | cmp a b | and a b | or a b | xor a b | shl a b | shr a b
  | addi a b => exact decodeOp_two _ hn a b rest

/-- R70, R79: a handler's instruction is encoded as its byte and as many operand bytes as `NOPS` says. -/
theorem encode_instr (o : Opcode) (a b : Byte) : encode (o.instr a b) = o.byte :: [a, b].take (nops o.byte) := by
  cases o <;> rfl

/-- R74: bytes that decode are the encoding of what they decode to, and the rest. -/
theorem eq_encode_append_of_decode {bytes rest : List Byte} {i : Instr} (h : decode bytes = .ok (i, rest)) :
    bytes = encode i ++ rest := by
  cases bytes with
  | nil => cases h
  | cons op tail =>
    obtain ⟨o, rfl, ⟨hn, rfl, rfl⟩ | ⟨hn, a, rfl, rfl⟩ | ⟨hn, a, b, rfl, rfl⟩⟩ := decodeOp_ok h <;>
      rw [encode_instr, hn] <;> rfl

theorem encode_injective {i j : Instr} (h : encode i = encode j) : i = j := by
  have hj := decode_encode_append j []
  rw [← h, decode_encode_append i []] at hj
  exact congrArg Prod.fst (Except.ok.inj hj)

/-- R71, R75: an instruction is one byte longer than the operand count in its opcode byte. -/
theorem length_encode (i : Instr) : (encode i).length = lengthOf i.opcode.byte := by
  rw [lengthOf, Laws.nops_opcode]
  rfl

/-! ## The opcode byte -/

/-- R79: the bytes without an entry in the ROM are those of no handler. -/
theorem rom_eq_none {op : Byte} : rom op = none ↔ op ∉ Opcode.all.map Opcode.byte := by
  simp [rom]

/-- R74, R107: a byte is rejected as unknown exactly when the ROM has no entry for it. -/
theorem decodeOp_eq_unknown {op : Byte} {rest : List Byte} :
    decodeOp op rest = .error (.unknownOpcode op) ↔ rom op = none := by
  refine ⟨fun h => ?_, decodeOp_of_none⟩
  obtain ⟨hrom, -⟩ | ⟨-, -, he⟩ := decodeOp_error h
  · exact hrom
  · cases he

/-- R71: `NOPS` is the number in the two high bits. -/
theorem nops_eq_div (op : Byte) : nops op = op.toNat / 64 := by
  have := op.isLt
  simp [nops, Nat.shiftRight_eq_div_pow]
  omega

/-- R71: `SETPC` is bit 4. -/
theorem setsPc_iff (op : Byte) : setsPc op = true ↔ op.toNat / 16 % 2 = 1 := by
  simp [setsPc, BitVec.getLsbD, Nat.testBit_eq_decide_div_mod_eq]

/-! ## The obligations -/

/-- Settles O2, which is `decode_encode_append`. -/
theorem decodeOfEncodeIsTheInstruction : Obligations.DecodeOfEncodeIsTheInstruction := decode_encode_append

/-- Settles O3, which is `eq_encode_append_of_decode`. -/
theorem encodeOfDecodeIsTheBytes : Obligations.EncodeOfDecodeIsTheBytes := fun _ _ _ => eq_encode_append_of_decode

/-- Settles O4: the unknown bytes are those without an entry in the ROM, whose bytes are R73's table. -/
theorem exactlyTheTableBytesAreOpcodes : Obligations.ExactlyTheTableBytesAreOpcodes := by
  unfold Obligations.ExactlyTheTableBytesAreOpcodes
  exact fun op rest => decodeOp_eq_unknown.trans rom_eq_none

/-- Settles O5: the fields are `nops_eq_div` and `setsPc_iff`; the two lengths follow from the bytes being the encoding
and the rest (`eq_encode_append_of_decode`). -/
theorem lengthIsInOpcodeBits : Obligations.LengthIsInOpcodeBits := by
  unfold Obligations.LengthIsInOpcodeBits
  intro op rest rest' i hdecode
  obtain ⟨rfl, htail⟩ : op = i.opcode.byte ∧ rest = i.operands ++ rest' :=
    List.cons.inj (eq_encode_append_of_decode hdecode)
  refine ⟨nops_eq_div _, setsPc_iff _, rfl, length_encode i, ?taken⟩
  case taken => rw [htail, List.length_append, Laws.nops_opcode, Nat.add_comm]

/-- Settles O1: each word is the encoding of its instruction, so `decode_encode_append` reads it. -/
theorem tableWordsDecode : Obligations.TableWordsDecode := by
  unfold Obligations.TableWordsDecode
  exact ⟨decode_encode_append .hlt [], decode_encode_append .iret [], decode_encode_append (.push 0x03#8) [],
    decode_encode_append (.jne 0x02#8) [], decode_encode_append (.ldi 0x00#8 0x05#8) [],
    decode_encode_append (.mul 0x00#8 0x01#8) [], decode_encode_append (.addi 0x00#8 0xFF#8) [0x01#8]⟩

end Sys2Proof
end

section
/-! The two ways an instruction answers (40_fetch_decode_dispatch R101, 60_exceptions R188), and the obligations that
follow from them for every instruction. -/

namespace Sys2Proof.Machine

/-- `exec_cases`, for a next state that is given: it is a completed one, or the start state stopped. -/
theorem completed_or_stopped {i : Instr} {s t : State} (hexec : exec i s = .next t) :
    Completed i s t ∨ ∃ e, StopOf i s e ∧ t = s.stop e := by
  obtain ⟨u, hu, hdone⟩ | ⟨e, he, hstop⟩ := exec_cases i s
  · obtain rfl := Host.Outcome.next.inj (hu.symm.trans hexec)
    exact .inl hdone
  · exact .inr ⟨e, hstop, (Host.Outcome.next.inj (he.symm.trans hexec)).symm⟩

/-- R32: no stop leaves the machine running. -/
theorem StopOf.run_ne {i : Instr} {s : State} {e : Stop} (hstop : StopOf i s e) : e.run ≠ .running := by
  cases hstop <;> simp [halt, raise]

/-- Settles O6: the machine still runs, so the instruction completed, and `Completed.pc` says where `pc` is. -/
theorem clearBitFourAdvancesByLength : Obligations.ClearBitFourAdvancesByLength := by
  unfold Obligations.ClearBitFourAdvancesByLength
  intro i s t _ hexec hrun hclear
  obtain hdone | ⟨e, hstop, rfl⟩ := completed_or_stopped hexec
  · exact hdone.pc hclear
  · exact absurd hrun hstop.run_ne

/-- R101: an interrupt entry that stops ends the step, on the state phase P left. -/
theorem step_of_not_serviced {s : State} {irqIn : Byte} {kbdWrite : Option Byte} {e : Stop} (hrun : s.run = .running)
    (hin : s.nextInput = .sample irqIn kbdWrite)
    (hserv : serviceInterrupts (poll irqIn kbdWrite s.takeInput) = .error e) :
    step s = .next ((poll irqIn kbdWrite s.takeInput).stop e) := by
  simp only [step, hin, transaction, State.takeInput_run, hrun, runningStep, hserv]

/-- Settles O44: a completed instruction leaves the machine running, so a stop is `State.stop` of the start state;
phase I stops only with StackBound (`serviceInterrupts_error`). -/
theorem stopsArePrecise : Obligations.StopsArePrecise := by
  unfold Obligations.StopsArePrecise
  refine ⟨fun i s t hrun hexec hstopped => ?instruction, fun s irqIn kbdWrite e hrun hin hserv => ?entry⟩
  case instruction =>
    obtain hdone | ⟨e, -, rfl⟩ := completed_or_stopped hexec
    · exact absurd (hdone.run.trans hrun) hstopped
    · rfl
  case entry =>
    obtain ⟨rfl, -, -⟩ := serviceInterrupts_error _ hserv
    exact step_of_not_serviced hrun hin hserv

/-! ## Every step answers -/

theorem exists_exec_next (i : Instr) (s : State) : ∃ t, exec i s = .next t := by
  obtain ⟨t, ht, -⟩ | ⟨e, he, -⟩ := exec_cases i s
  · exact ⟨t, ht⟩
  · exact ⟨_, he⟩

theorem exists_executePhase_next (s : State) : ∃ t, executePhase s = .next t := by
  unfold executePhase
  split
  · exact exists_exec_next _ s
  · exact ⟨_, rfl⟩

theorem exists_runningStep_next (irqIn : Byte) (kbdWrite : Option Byte) (s : State) :
    ∃ t, runningStep irqIn kbdWrite s = .next t := by
  unfold runningStep
  split
  · exact exists_executePhase_next _
  · exact ⟨_, rfl⟩

/-- Settles O57: only a running machine's sample does more than name its next state, and there phase X answers. -/
theorem everyStepAnswers : Obligations.EveryStepAnswers := by
  unfold Obligations.EveryStepAnswers step transaction
  intro s
  split
  · exact ⟨_, rfl⟩
  · split
    · exact exists_runningStep_next _ _ _
    · exact ⟨_, rfl⟩
    · exact ⟨_, rfl⟩

end Sys2Proof.Machine
end

section
/-! The invariant (10_state section 5, 60_exceptions R181, R188): the diagnostic registers of every stop tell the truth,
and the phases that do not stop keep them. -/

namespace Sys2Proof.Machine

/-- R181: a running machine has cause 0 and cleared diagnostic registers. -/
theorem State.diagnosticsTrue_of_running {s : State} (hrun : s.run = .running) :
    s.diagnosticsTrue ↔ s.cause = .none ∧ s.epc = 0x00#8 ∧ s.einfo = 0x00#8 := by
  unfold State.diagnosticsTrue
  cases hcause : s.cause <;> simp [hrun]

/-- What a running machine keeps of the invariant: it needs `RUN` and the diagnostic registers as they were. -/
theorem State.Inv.of_same {s t : State} (hs : s.Inv) (hrunning : s.run = .running) (hrun : t.run = s.run)
    (hcause : t.cause = s.cause) (hepc : t.epc = s.epc) (heinfo : t.einfo = s.einfo)
    (hwf : s.mem.wf = true → t.mem.wf = true) : t.Inv := by
  obtain ⟨hmem, hdiag⟩ := hs
  refine ⟨hwf hmem, (State.diagnosticsTrue_of_running (hrun.trans hrunning)).mpr ?_⟩
  rw [hcause, hepc, heinfo]
  exact (State.diagnosticsTrue_of_running hrunning).mp hdiag

/-- R181 to R187: a stop of the instruction that stands at `pc` is a true row of the cause table. -/
theorem StopOf.diagnosticsTrue {i : Instr} {s : State} {e : Stop} (hstop : StopOf i s e)
    (hbyte : i.opcode.byte = s.memRead s.pc) : (s.stop e).diagnosticsTrue := by
  cases hstop with
  | hlt hi => exact ⟨rfl, rfl, by rw [State.stop_memRead, State.stop_pc, ← hbyte, hi]; rfl⟩
  | divideByZero a b hi _ => exact ⟨rfl, rfl, by rw [State.stop_memRead, State.stop_pc, ← hbyte, hi]; rfl⟩
  | registerIndex r _ hbad => exact ⟨rfl, hbad⟩
  | pcBound n hpos hle hgt _ _ =>
    have hn : (BitVec.ofNat 8 n).toNat = n := by rw [BitVec.toNat_ofNat]; omega
    exact ⟨rfl, hpos.trans_eq hn.symm, hn.trans_le hle, hgt.trans_eq (congrArg _ hn.symm)⟩
  | stackBound p hp _ => exact ⟨rfl, hp⟩

/-- R182, R184: a stop of the fetch is a true row of the cause table. -/
theorem diagnosticsTrue_of_fetch_error {s : State} {e : Stop} (hfetch : fetch s = .error e) :
    (s.stop e).diagnosticsTrue := by
  obtain ⟨hrom, rfl⟩ | ⟨hrom, hgt, rfl⟩ := fetch_error s hfetch
  · exact ⟨rfl, rfl, hrom⟩
  · have hle := nops_le _ hrom
    have hn : (BitVec.ofNat 8 (nops (s.memRead s.pc))).toNat = nops (s.memRead s.pc) := by
      rw [BitVec.toNat_ofNat]; omega
    exact ⟨rfl, hn, hgt.trans_eq (congrArg _ hn.symm)⟩

/-- Settles O55: at reset no cell is listed, and the machine runs with cleared diagnostic registers. -/
theorem invariantAtReset : Obligations.InvariantAtReset :=
  ⟨rfl, (State.diagnosticsTrue_of_running rfl).mpr ⟨rfl, rfl, rfl⟩⟩

/-- Phase X keeps the invariant of a running machine: the instruction it fetched stands at `pc`. -/
theorem State.Inv.exec_next {i : Instr} {s t : State} (hs : s.Inv) (hrunning : s.run = .running)
    (hfetch : fetch s = .ok i) (hexec : exec i s = .next t) : t.Inv := by
  obtain hdone | ⟨e, hstop, rfl⟩ := completed_or_stopped hexec
  · exact hs.of_same hrunning hdone.run hdone.cause hdone.epc hdone.einfo hdone.wf
  · exact ⟨hs.1, hstop.diagnosticsTrue (fetch_ok s hfetch).1⟩

/-- Settles O56: `rst` and a stopped machine keep it as it is; in a running machine phases P and I keep it, and so does
phase X, whether it completes or stops. -/
theorem everyStepKeepsTheInvariant : Obligations.EveryStepKeepsTheInvariant := by
  unfold Obligations.EveryStepKeepsTheInvariant
  intro s t hs hstep
  obtain ⟨-, rfl⟩ | ⟨irqIn, kbdWrite, -, ⟨-, rfl⟩ | ⟨hrun, p, -, hp, hphases⟩⟩ := step_cases s hstep
  · exact ⟨hs.1, invariantAtReset.2⟩
  · exact hs
  · have hpInv : p.Inv := hs.of_same (s := s) hrun hp.run hp.cause hp.epc hp.einfo hp.wf
    have hprun : p.run = .running := hp.run.trans hrun
    obtain ⟨e, hserv, rfl⟩ | ⟨u, hserv, hx⟩ := hphases
    · obtain ⟨rfl, -, -⟩ := serviceInterrupts_error p hserv
      exact ⟨hpInv.1, rfl, .inl rfl⟩
    · obtain ⟨hurun, hcause, hepc, heinfo, -, -, -, hwf⟩ := serviceInterrupts_keeps p hserv
      have huInv : u.Inv := hpInv.of_same hprun hurun hcause hepc heinfo hwf
      obtain ⟨e, hfetch, rfl⟩ | ⟨i, hfetch, hexec⟩ := hx
      · exact ⟨huInv.1, diagnosticsTrue_of_fetch_error hfetch⟩
      · exact huInv.exec_next (hurun.trans hprun) hfetch hexec

end Sys2Proof.Machine
end

section
/-! Registers (10_state R20, R21) and the reset state (R38): the two obligations on them. -/

namespace Sys2Proof.Machine

/-- Settles O9: every read after the write is `State.reg_setReg`, since `IM`, `IS` and `SP` are registers. -/
theorem registerWriteAndAliases : Obligations.RegisterWriteAndAliases := by
  unfold Obligations.RegisterWriteAndAliases
  intro s r q v
  have hread (k : Fin 8) : (s.setReg r v).reg k = if r = k then v else s.reg k :=
    (State.reg_setReg s r k v).trans (if_congr eq_comm rfl rfl)
  exact ⟨State.reg_setReg s r q v, rfl, hread 5, hread 6, hread 7⟩

/-- Settles O8: each field is read off `State.reset`, whose memory lists no cell. -/
theorem resetOtherState : Obligations.ResetOtherState :=
  ⟨rfl, rfl, rfl, rfl, rfl, rfl, rfl, rfl, fun _ => rfl⟩

end Sys2Proof.Machine
end

section
/-! The canonical form of memory (log 12) is determined by what it reads as, and the obligation on it. -/

namespace Sys2Proof.Machine

/-- A canonical memory reads as unlisted below its first address. -/
theorem Memory.read_eq_unlisted {lo : Nat} {m : Memory} {a : Byte} (hm : Memory.wfFrom lo m = true)
    (ha : a.toNat < lo) : m.read a = Memory.unlisted := by
  induction m generalizing lo with
  | nil => rfl
  | cons c rest ih =>
    obtain ⟨hlo, -, -, hrest⟩ := Memory.wfFrom_cons.mp hm
    rw [Memory.read, if_neg (by omega)]
    exact ih hrest (by omega)

theorem Memory.read_cons_self {c : Host.Cell} {rest : Memory} (hc : c.1 < 256) :
    Memory.read (c :: rest) (BitVec.ofNat 8 c.1) = c.2 := by
  rw [Memory.read, if_pos (by rw [BitVec.toNat_ofNat]; omega)]

/-- The first listed address of a memory is no lower than the bound of any canonical memory that reads the same. -/
theorem Memory.le_head_of_read_eq {lo k : Nat} {c : Host.Cell} {rest n : Memory}
    (hm : Memory.wfFrom lo (c :: rest) = true) (hn : Memory.wfFrom k n = true)
    (hread : ∀ a, Memory.read (c :: rest) a = n.read a) : k ≤ c.1 := by
  obtain ⟨-, hlt, hlisted, -⟩ := Memory.wfFrom_cons.mp hm
  by_contra hbelow
  have hhead := hread (BitVec.ofNat 8 c.1)
  rw [Memory.read_cons_self hlt, Memory.read_eq_unlisted hn (by rw [BitVec.toNat_ofNat]; omega)] at hhead
  exact hlisted hhead

/-- A canonical memory that reads as unlisted everywhere lists nothing. -/
theorem Memory.eq_nil_of_read_eq {lo : Nat} {m : Memory} (hm : Memory.wfFrom lo m = true)
    (hread : ∀ a, m.read a = Memory.unlisted) : m = [] := by
  cases m with
  | nil => rfl
  | cons c rest =>
    have hle : 256 ≤ c.1 := Memory.le_head_of_read_eq (n := []) hm rfl hread
    exact absurd (Memory.wfFrom_cons.mp hm).2.1 (Nat.not_lt.mpr hle)

/-- Canonical memories that read the same are equal: their first cells agree, and so do the reads of the rest. -/
theorem Memory.eq_of_read_eq {lo k : Nat} {m n : Memory} (hm : Memory.wfFrom lo m = true)
    (hn : Memory.wfFrom k n = true) (hread : ∀ a, m.read a = n.read a) : m = n := by
  induction m generalizing lo k n with
  | nil => exact (Memory.eq_nil_of_read_eq hn fun a => (hread a).symm).symm
  | cons c rest ih =>
    cases n with
    | nil => exact Memory.eq_nil_of_read_eq hm hread
    | cons d rest' =>
      obtain ⟨-, hc, hcv, hrest⟩ := Memory.wfFrom_cons.mp hm
      obtain ⟨-, hd, hdv, hrest'⟩ := Memory.wfFrom_cons.mp hn
      have haddr : c.1 = d.1 := Nat.le_antisymm
        (Memory.le_head_of_read_eq hn (Memory.wfFrom_cons.mpr ⟨le_rfl, hc, hcv, hrest⟩) fun a => (hread a).symm)
        (Memory.le_head_of_read_eq hm (Memory.wfFrom_cons.mpr ⟨le_rfl, hd, hdv, hrest'⟩) hread)
      have hvalue : c.2 = d.2 := by
        have hhead := hread (BitVec.ofNat 8 c.1)
        rwa [Memory.read_cons_self hc, haddr, Memory.read_cons_self hd] at hhead
      have htail : rest = rest' := by
        refine ih hrest hrest' fun a => ?_
        by_cases ha : c.1 = a.toNat
        · rw [Memory.read_eq_unlisted hrest (by omega), Memory.read_eq_unlisted hrest' (by omega)]
        · have hboth := hread a
          rwa [Memory.read, Memory.read, if_neg ha, if_neg (haddr ▸ ha)] at hboth
      rw [Prod.ext haddr hvalue, htail]

/-- Settles O11, which is `Memory.eq_of_read_eq` from address 0 on. -/
theorem equalReadsAreEqualMemories : Obligations.EqualReadsAreEqualMemories :=
  fun _ _ => Memory.eq_of_read_eq

end Sys2Proof.Machine
end

section
/-! The ALU's next states (41_alu R120 to R132): the next state of each remaining form where the instruction fits, the
value of each operation, and one obligation for each instruction. -/

namespace Sys2Proof.Machine

/-! ## Instructions that fit -/

/-- R109: an advance within memory completes phase X. -/
theorem runPhase_advance_of_le {s t : State} {n : Nat} (hpc : t.pc = s.pc) (hfit : s.pc.toNat + n ≤ 255) :
    runPhase s (advance n t) = .next (t.setPc (s.pc + BitVec.ofNat 8 n)) := by
  rw [advance_of_le t (hpc ▸ hfit), hpc]
  rfl

section
variable {s : State} (a b : Fin 8)

/-- R122, R140: a fitting instruction of format RI leaves the operation of the old value and the literal. -/
theorem registerLiteral_next (f : Byte → Byte → Byte) (v : Byte) (hfit : s.pc.toNat + 3 ≤ 255) :
    registerLiteral f (regByte a) v s = .next ((s.setReg a (f (s.reg a) v)).setPc (s.pc + 3#8)) := by
  rw [registerLiteral, registerOperand_regByte]
  exact runPhase_advance_of_le rfl hfit

theorem execNot_next (hfit : s.pc.toNat + 2 ≤ 255) :
    execNot (regByte a) s = .next ((s.setReg a (~~~ s.reg a)).setPc (s.pc + 2#8)) := by
  rw [execNot, registerOperand_regByte]
  exact runPhase_advance_of_le rfl hfit

/-- R131: a non-zero divisor is divided by. -/
theorem execMod_next (hdiv : s.reg b ≠ 0x00#8) (hfit : s.pc.toNat + 3 ≤ 255) :
    execMod (regByte a) (regByte b) s =
      .next ((s.setReg a (remainder (s.reg a) (s.reg b))).setPc (s.pc + 3#8)) := by
  simp only [execMod, registerOperand_regByte, ok_bind, hdiv, if_false]
  exact runPhase_advance_of_le rfl hfit

end

/-! ## The values of the operations -/

theorem wrapAdd_eq (va vb : Byte) : wrapAdd va vb = BitVec.ofNat 8 ((va.toNat + vb.toNat) % 256) :=
  BitVec.eq_of_toNat_eq (by rw [wrapAdd_toNat, BitVec.toNat_ofNat, Nat.mod_mod])

theorem wrapSub_eq (va vb : Byte) :
    wrapSub va vb = BitVec.ofInt 8 (((va.toNat : Int) - (vb.toNat : Int)) % 256) := by
  apply BitVec.eq_of_toNat_eq
  have hsub := wrapSub_toNat va vb
  rw [BitVec.toNat_ofInt]
  omega

theorem wrapMul_eq (va vb : Byte) : wrapMul va vb = BitVec.ofNat 8 (va.toNat * vb.toNat % 256) :=
  BitVec.eq_of_toNat_eq (by rw [wrapMul_toNat, BitVec.toNat_ofNat, Nat.mod_mod])

theorem complement_eq (v : Byte) : ~~~ v = BitVec.ofNat 8 (255 - v.toNat) := by
  apply BitVec.eq_of_toNat_eq
  rw [BitVec.toNat_not, BitVec.toNat_ofNat]
  omega

/-- R129: the amount is not reduced, so eight and more shift everything out. -/
theorem shiftLeft_eq (va vb : Byte) : shiftLeft va vb = BitVec.ofNat 8 (va.toNat * 2 ^ vb.toNat % 256) := by
  apply BitVec.eq_of_toNat_eq
  rw [shiftLeft, BitVec.toNat_shiftLeft, Nat.shiftLeft_eq, BitVec.toNat_ofNat, Nat.mod_mod]

/-- R130: a logical shift divides by a power of two. -/
theorem shiftRight_eq (va vb : Byte) : shiftRight va vb = BitVec.ofNat 8 (va.toNat / 2 ^ vb.toNat) := by
  apply BitVec.eq_of_toNat_eq
  rw [shiftRight, BitVec.toNat_ushiftRight, Nat.shiftRight_eq_div_pow, BitVec.toNat_ofNat,
    Nat.mod_eq_of_lt (Nat.div_lt_of_lt va.isLt)]

theorem compareFlags_eq (va vb : Byte) :
    compareFlags va vb =
      if va.toNat = vb.toNat then 0b001#3 else if va.toNat > vb.toNat then 0b010#3 else 0b100#3 :=
  if_congr BitVec.toNat_inj.symm rfl rfl

/-! ## The obligations -/

/-- Settles O12: the two-register form with `wrapAdd`, whose value is `wrapAdd_eq`. -/
theorem addResult : Obligations.AddResult := by
  unfold Obligations.AddResult
  intro s a b hfit
  rw [← wrapAdd_eq]
  exact twoRegisters_next wrapAdd a b hfit

/-- Settles O13: the literal form with `wrapAdd`, whose value is `wrapAdd_eq`. -/
theorem addiResult : Obligations.AddiResult := by
  unfold Obligations.AddiResult
  intro s a b hfit
  rw [← wrapAdd_eq]
  exact registerLiteral_next a wrapAdd b hfit

/-- Settles O14: the two-register form with `wrapSub`, whose value is `wrapSub_eq`. -/
theorem subResult : Obligations.SubResult := by
  unfold Obligations.SubResult
  intro s a b hfit
  rw [← wrapSub_eq]
  exact twoRegisters_next wrapSub a b hfit

/-- Settles O15: the two-register form with `wrapMul`, whose value is `wrapMul_eq`. -/
theorem mulResult : Obligations.MulResult := by
  unfold Obligations.MulResult
  intro s a b hfit
  rw [← wrapMul_eq]
  exact twoRegisters_next wrapMul a b hfit

/-- Settles O16: the two-register form with the bitwise operation itself. -/
theorem andResult : Obligations.AndResult := fun _ a b => twoRegisters_next (· &&& ·) a b

/-- Settles O17: the two-register form with the bitwise operation itself. -/
theorem orResult : Obligations.OrResult := fun _ a b => twoRegisters_next (· ||| ·) a b

/-- Settles O18: the two-register form with the bitwise operation itself. -/
theorem xorResult : Obligations.XorResult := fun _ a b => twoRegisters_next (· ^^^ ·) a b

/-- Settles O19: `execNot_next`, with the value of `complement_eq`. -/
theorem notResult : Obligations.NotResult := by
  unfold Obligations.NotResult
  intro s a hfit
  rw [← complement_eq]
  exact execNot_next a hfit

/-- Settles O20: the two-register form with `shiftLeft`, whose value is `shiftLeft_eq`. -/
theorem shlResult : Obligations.ShlResult := by
  unfold Obligations.ShlResult
  intro s a b hfit
  rw [← shiftLeft_eq]
  exact twoRegisters_next shiftLeft a b hfit

/-- Settles O21: the two-register form with `shiftRight`, whose value is `shiftRight_eq`. -/
theorem shrResult : Obligations.ShrResult := by
  unfold Obligations.ShrResult
  intro s a b hfit
  rw [← shiftRight_eq]
  exact twoRegisters_next shiftRight a b hfit

/-- Settles O22; `remainder` is the stated value itself. -/
theorem modResult : Obligations.ModResult := fun _ a b => execMod_next a b

/-- Settles O23: `execCmp_next`, with the flags of `compareFlags_eq`. -/
theorem cmpResult : Obligations.CmpResult := by
  unfold Obligations.CmpResult
  intro s a b hfit
  rw [← compareFlags_eq]
  exact execCmp_next a b hfit

end Sys2Proof.Machine
end

section
/-! The next states of data move, output, jumps and HLT (42, 44, 40_fetch_decode_dispatch R110). -/

namespace Sys2Proof.Machine

theorem execPrn_next {s : State} (a : Fin 8) (hfit : s.pc.toNat + 2 ≤ 255) :
    execPrn (regByte a) s = .next ((s.emit (s.reg a)).setPc (s.pc + 2#8)) := by
  rw [execPrn, registerOperand_regByte]
  exact runPhase_advance_of_le rfl hfit

/-- R160 to R162: a jump that is taken goes to the register's value, wherever it stands. -/
theorem jumpIf_true_next (s : State) (a : Fin 8) : jumpIf true (regByte a) s = .next (s.setPc (s.reg a)) := by
  rw [jumpIf, registerOperand_regByte]
  rfl

/-- R26: the flag a jump tests is the low bit of `FL`. -/
theorem State.flagE_eq (s : State) : s.flagE = decide (s.fl.toNat % 2 = 1) := by
  rw [State.flagE, BitVec.getLsbD, Nat.testBit_zero]

/-- Settles O26: the literal form that keeps the literal. -/
theorem ldiResult : Obligations.LdiResult := fun _ a b => registerLiteral_next a (fun _ v => v) b

/-- Settles O27: `execPrn_next`. -/
theorem prnResult : Obligations.PrnResult := fun _ a => execPrn_next a

/-- Settles O32: a jump that is always taken, `jumpIf_true_next`. -/
theorem jmpResult : Obligations.JmpResult := jumpIf_true_next

/-- Settles O33: a set E is the taken jump of `jumpIf_true_next`, a clear one the advance of `jumpIf_next`. -/
theorem jeqResult : Obligations.JeqResult := by
  unfold Obligations.JeqResult
  refine fun s a => ⟨fun hset => ?taken, fun hclear hfit => ?notTaken⟩
  case taken =>
    have hE : s.flagE = true := by rw [State.flagE_eq, hset]; rfl
    exact (congrArg (jumpIf · (regByte a) s) hE).trans (jumpIf_true_next s a)
  case notTaken =>
    have hE : s.flagE = false := by rw [State.flagE_eq, hclear]; rfl
    exact (congrArg (jumpIf · (regByte a) s) hE).trans (jumpIf_next false a hfit)

/-- Settles O34, as O33 with the bit the other way round. -/
theorem jneResult : Obligations.JneResult := by
  unfold Obligations.JneResult
  refine fun s a => ⟨fun hclear => ?taken, fun hset hfit => ?notTaken⟩
  case taken =>
    have hE : (!s.flagE) = true := by rw [State.flagE_eq, hclear]; rfl
    exact (congrArg (jumpIf · (regByte a) s) hE).trans (jumpIf_true_next s a)
  case notTaken =>
    have hE : (!s.flagE) = false := by rw [State.flagE_eq, hset]; rfl
    exact (congrArg (jumpIf · (regByte a) s) hE).trans (jumpIf_next false a hfit)

/-- Settles O35: HLT is a phase that stops. -/
theorem hltResult : Obligations.HltResult := fun s => runPhase_error s (halt .haltInstruction)

end Sys2Proof.Machine
end

section
/-! The next states of the stack and subroutine instructions and of IRET where the pointer has room (43, 45), and
the two laws of a push and the pop that undoes it (R151, R154). -/

namespace Sys2Proof.Machine

theorem State.setReg_setReg_self (s : State) (r : Fin 8) (v w : Byte) : (s.setReg r v).setReg r w = s.setReg r w := by
  simp [State.setReg, Vector.set_set]

/-- R150: the register is read after the decrement. -/
theorem execPush_next {s : State} (a : Fin 8) (hroom : s.reg 7 ≠ 0x00#8) (hfit : s.pc.toNat + 2 ≤ 255) :
    execPush (regByte a) s =
      .next (((s.setReg 7 (s.reg 7 - 1#8)).memWrite (s.reg 7 - 1#8) (if a = 7 then s.reg 7 - 1#8 else s.reg a)).setPc
        (s.pc + 2#8)) := by
  rw [execPush, registerOperand_regByte, ok_bind, predecrement_eq, if_neg hroom, ok_bind, State.sp_eq,
    State.reg_setReg_self, State.reg_setReg]
  exact runPhase_advance_of_le rfl hfit

/-- R151: the popped byte is written first, and the pointer of that moment is incremented. -/
theorem execPop_next {s : State} (a : Fin 8) (hroom : s.reg 7 ≠ 0xFF#8)
    (hroom' : (s.setReg a (s.memRead (s.reg 7))).reg 7 ≠ 0xFF#8) (hfit : s.pc.toNat + 2 ≤ 255) :
    execPop (regByte a) s =
      .next (((s.setReg a (s.memRead (s.reg 7))).setReg 7 ((s.setReg a (s.memRead (s.reg 7))).reg 7 + 1#8)).setPc
        (s.pc + 2#8)) := by
  rw [execPop, registerOperand_regByte, ok_bind, State.sp_eq, if_neg hroom, postincrement_eq, if_neg hroom', ok_bind]
  exact runPhase_advance_of_le rfl hfit

/-- R151: POP of a register other than the pointer. -/
theorem execPop_next_of_ne {s : State} {a : Fin 8} (ha : a ≠ 7) (hroom : s.reg 7 ≠ 0xFF#8)
    (hfit : s.pc.toNat + 2 ≤ 255) :
    execPop (regByte a) s =
      .next (((s.setReg a (s.memRead (s.reg 7))).setReg 7 (s.reg 7 + 1#8)).setPc (s.pc + 2#8)) := by
  have hsp : (s.setReg a (s.memRead (s.reg 7))).reg 7 = s.reg 7 := State.reg_setReg_of_ne _ _ _ _ ha.symm
  rw [execPop_next a hroom (by rwa [hsp]) hfit, hsp]

/-- R151: POP R7 leaves the popped byte plus one in the pointer. -/
theorem execPop_sp_next {s : State} (hroom : s.reg 7 ≠ 0xFF#8) (hpopped : s.memRead (s.reg 7) ≠ 0xFF#8)
    (hfit : s.pc.toNat + 2 ≤ 255) :
    execPop (regByte 7) s = .next ((s.setReg 7 (s.memRead (s.reg 7) + 1#8)).setPc (s.pc + 2#8)) := by
  have hsp : (s.setReg 7 (s.memRead (s.reg 7))).reg 7 = s.memRead (s.reg 7) := State.reg_setReg_self _ _ _
  rw [execPop_next 7 hroom (by rwa [hsp]) hfit, hsp, State.setReg_setReg_self]

/-- R152: the target is read after the push. -/
theorem execCall_next {s : State} (a : Fin 8) (hroom : s.reg 7 ≠ 0x00#8) (hfit : s.pc.toNat + 2 ≤ 255) :
    execCall (regByte a) s =
      .next (((s.setReg 7 (s.reg 7 - 1#8)).memWrite (s.reg 7 - 1#8) (s.pc + 2#8)).setPc
        (if a = 7 then s.reg 7 - 1#8 else s.reg a)) := by
  rw [execCall, registerOperand_regByte, ok_bind, if_neg (Nat.not_lt.mpr hfit), push_eq, if_neg hroom, ok_bind,
    State.memWrite_reg, State.reg_setReg]
  rfl

theorem execRet_next {s : State} (hroom : s.reg 7 ≠ 0xFF#8) :
    execRet s = .next ((s.setReg 7 (s.reg 7 + 1#8)).setPc (s.memRead (s.reg 7))) := by
  rw [execRet, pop_eq, if_neg hroom]
  rfl

/-- Settles O28: `execPush_next`. -/
theorem pushResult : Obligations.PushResult := fun _ a => execPush_next a

/-- Settles O29: `execPop_next_of_ne`, and `execPop_sp_next` for the pointer. -/
theorem popResult : Obligations.PopResult := by
  unfold Obligations.PopResult
  refine fun s a hroom hfit => ⟨fun ha => execPop_next_of_ne ha hroom hfit, ?sp⟩
  case sp =>
    rintro rfl hpopped
    exact execPop_sp_next hroom hpopped hfit

/-- Settles O30: `execCall_next`. -/
theorem callResult : Obligations.CallResult := fun _ a => execCall_next a

/-- Settles O31: `execRet_next`. -/
theorem retResult : Obligations.RetResult := fun _ => execRet_next

/-! ## What a push leaves, a pop takes back -/

theorem sub_one_ne_max {p : Byte} (h : p ≠ 0x00#8) : p - 1#8 ≠ 0xFF#8 := by
  intro hmax
  have hp := toNat_sub_one h
  have hlt := p.isLt
  rw [hmax, BitVec.toNat_ofNat] at hp
  omega

/-- R151: a POP that finds the pointer, its cell and the other registers as a PUSH of the same register from `s` leaves
them brings every register back to its value in `s`. For R7 the popped byte is the decremented pointer, so in every case
the POP increments the pointer the PUSH decremented. -/
theorem execPop_of_pushed {s t : State} {a : Fin 8} (hroom : s.reg 7 ≠ 0x00#8) (hsp : t.reg 7 = s.reg 7 - 1#8)
    (hcell : t.memRead (t.reg 7) = if a = 7 then s.reg 7 - 1#8 else s.reg a)
    (hothers : ∀ r : Fin 8, r ≠ 7 → t.reg r = s.reg r) (hfit : t.pc.toNat + 2 ≤ 255) :
    execPop (regByte a) t = .next { t with x := s.x, pc := t.pc + 2#8 } := by
  have hmax := sub_one_ne_max hroom
  have hpopped : (t.setReg a (t.memRead (t.reg 7))).reg 7 = s.reg 7 - 1#8 := by
    by_cases ha : a = 7
    · rw [hcell, if_pos ha, ha, State.reg_setReg_self]
    · rw [State.reg_setReg_of_ne _ _ _ _ (Ne.symm ha), hsp]
  rw [execPop_next a (hsp ▸ hmax) (hpopped ▸ hmax) hfit, hpopped, hcell, BitVec.sub_add_cancel]
  refine congrArg _ (State.ext_reg (fun r => ?reg) rfl rfl rfl rfl rfl rfl rfl rfl rfl rfl)
  case reg =>
    rw [State.setPc_reg, State.reg_setReg, State.reg_setReg]
    split_ifs with h7 ha ha7
    · exact h7 ▸ rfl
    · exact absurd (ha.trans ha7) h7
    · exact ha ▸ rfl
    · exact hothers r h7

/-- Settles O37: the PUSH is `execPush_next`, and the state it leaves meets `execPop_of_pushed`. -/
theorem pushThenPopRestores : Obligations.PushThenPopRestores := by
  unfold Obligations.PushThenPopRestores
  intro s a hroom hfit
  refine ⟨_, execPush_next a hroom (by omega), (execPop_of_pushed hroom ?sp ?cell ?others ?fits).trans ?next⟩
  case sp => exact State.reg_setReg_self s 7 _
  case cell =>
    rw [State.setPc_reg, State.memWrite_reg, State.reg_setReg_self, State.setPc_memRead, State.memRead_memWrite,
      if_pos rfl]
  case others => exact fun r h7 => State.reg_setReg_of_ne s 7 r _ h7
  case fits =>
    rw [State.setPc_pc, BitVec.toNat_add, BitVec.toNat_ofNat]
    omega
  case next =>
    rw [State.setPc_pc, BitVec.add_assoc]
    rfl

/-- Settles O38: the CALL is `execCall_next`, and a RET that finds its pointer and cell goes to the address pushed. -/
theorem callThenReturnComesBack : Obligations.CallThenReturnComesBack := by
  unfold Obligations.CallThenReturnComesBack
  refine fun s a hroom hfit => ⟨_, execCall_next a hroom hfit, fun u hsp hcell => ?ret⟩
  case ret =>
    have husp : u.reg 7 = s.reg 7 - 1#8 := hsp.trans (State.reg_setReg_self s 7 _)
    have hpushed : u.memRead (u.reg 7) = s.pc + 2#8 := by
      refine (congrArg u.memRead hsp).trans (hcell.trans ?_)
      rw [State.setPc_memRead, State.memRead_memWrite]
      exact if_pos (State.reg_setReg_self s 7 _)
    refine (execRet_next (husp ▸ sub_one_ne_max hroom)).trans ?_
    rw [hpushed, husp, BitVec.sub_add_cancel]
    rfl

/-! ## IRET -/

theorem pop_of_ne {s : State} (hroom : s.reg 7 ≠ 0xFF#8) :
    pop s = .ok (s.memRead (s.reg 7), s.setReg 7 (s.reg 7 + 1#8)) := by
  rw [pop_eq, if_neg hroom]

/-- A pointer `k` above one that has room for more than `k` pops is not at the top. -/
theorem add_ne_max {p : Byte} {k : Nat} (h : p.toNat + k < 255) : p + BitVec.ofNat 8 k ≠ 0xFF#8 := by
  intro hmax
  have := congrArg BitVec.toNat hmax
  rw [BitVec.toNat_add, BitVec.toNat_ofNat, BitVec.toNat_ofNat] at this
  omega

/-- R170: once the seven registers are popped, two more pops give `FL` and `pc`. -/
theorem interruptReturn_of_popRegs {s u : State} (hregs : popRegs [6, 5, 4, 3, 2, 1, 0] s = .ok u)
    (hroom : u.reg 7 ≠ 0xFF#8) (hroom' : u.reg 7 + 1#8 ≠ 0xFF#8) :
    interruptReturn s =
      .ok ((((u.setReg 7 (u.reg 7 + 1#8 + 1#8)).setFl ((u.memRead (u.reg 7)).setWidth 3)).setPc
        (u.memRead (u.reg 7 + 1#8))).setIe true) := by
  have hsp (f : FlagBits) : ((u.setReg 7 (u.reg 7 + 1#8)).setFl f).reg 7 = u.reg 7 + 1#8 := State.reg_setReg_self u 7 _
  rw [interruptReturn, hregs, ok_bind, pop_of_ne hroom, ok_bind]
  simp only [pop_of_ne (hsp _ ▸ hroom'), ok_bind, hsp]
  rw [← State.setReg_setReg_self u 7 (u.reg 7 + 1#8) (u.reg 7 + 1#8 + 1#8)]
  rfl

/-- Settles O36: `popRegs_of_le` gives the seven registers, `interruptReturn_of_popRegs` the rest. -/
theorem iretResult : Obligations.IretResult := by
  unfold Obligations.IretResult
  intro s (hroom : (s.reg 7).toNat ≤ 0xF6)
  obtain ⟨u, hu, hsp, hcell, -⟩ := popRegs_of_le s [6, 5, 4, 3, 2, 1, 0] (by decide) (by decide)
    (show (s.reg 7).toNat + 7 ≤ 255 by omega)
  have hkept := popRegs_ok s hu
  have hread (c : Byte) : u.memRead c = s.memRead c := congrArg (Memory.read · c) hkept.mem
  have h7 : u.reg 7 = s.reg 7 + 7#8 := hsp
  have h8 : u.reg 7 + 1#8 = s.reg 7 + 8#8 := by rw [h7, BitVec.add_assoc]; rfl
  have h9 : u.reg 7 + 1#8 + 1#8 = s.reg 7 + 9#8 := by rw [h8, BitVec.add_assoc]; rfl
  have hret := interruptReturn_of_popRegs hu (h7 ▸ add_ne_max (k := 7) (by omega)) (h8 ▸ add_ne_max (k := 8) (by omega))
  rw [h9, h8, h7, hread, hread] at hret
  refine (congrArg (runPhase s) hret).trans (congrArg Host.Outcome.next (State.ext_reg (fun r => ?reg) rfl rfl rfl
    hkept.run hkept.cause hkept.epc hkept.einfo hkept.out hkept.mem hkept.inputs))
  case reg =>
    change (u.setReg 7 (s.reg 7 + 9#8)).reg r = _
    rw [State.reg_setReg]
    fin_cases r
    exacts [hcell 6 (by decide), hcell 5 (by decide), hcell 4 (by decide), hcell 3 (by decide), hcell 2 (by decide),
      hcell 1 (by decide), (hcell 0 (by decide)).trans (congrArg s.memRead (BitVec.add_zero _)), rfl]

end Sys2Proof.Machine
end

section
/-! RegisterIndex (60_exceptions R186, 40_fetch_decode_dispatch R108). -/

namespace Sys2Proof.Machine

/-- R108: a phase X that begins with a bad register operand stops with it, whatever it would do next. -/
theorem runPhase_of_bad_operand {a : Byte} (hbad : 7 < a.toNat) (s : State) (k : Fin 8 → Except Stop State) :
    runPhase s (registerOperand a >>= k) = .next (s.stoppedWith .faulted .registerIndex a) := by
  rw [registerOperand_bad hbad]
  rfl

/-- R108: byte `b` is checked second, when byte `a` selects a register. -/
theorem runPhase_of_bad_second_operand {a b : Byte} (hgood : a.toNat ≤ 7) (hbad : 7 < b.toNat) (s : State)
    (k : Fin 8 → Fin 8 → Except Stop State) :
    runPhase s (registerOperand a >>= fun ra => registerOperand b >>= k ra) =
      .next (s.stoppedWith .faulted .registerIndex b) := by
  obtain ⟨ra, -, hra⟩ | ⟨hbad', -⟩ := registerOperand_cases a
  · rw [hra, ok_bind]
    exact runPhase_of_bad_operand hbad s (k ra)
  · exact absurd hbad' (Nat.not_lt.mpr hgood)

/-- Settles O39: each form begins with the check of byte `a`, and a two-register form goes on with that of `b`. -/
theorem registerIndexRaised : Obligations.RegisterIndexRaised := by
  unfold Obligations.RegisterIndexRaised
  refine ⟨fun s a b hbad => ?first, fun s a b hgood hbad => ?second⟩
  case first =>
    have stops := runPhase_of_bad_operand hbad s
    simp only [List.forall_mem_cons]
    exact ⟨stops _, stops _, stops _, stops _, stops _, stops _, stops _, stops _, stops _, stops _, stops _, stops _,
      stops _, stops _, stops _, stops _, stops _, stops _, stops _, stops _, List.forall_mem_nil _⟩
  case second =>
    have stops := runPhase_of_bad_second_operand hgood hbad s
    simp only [List.forall_mem_cons]
    exact ⟨stops _, stops _, stops _, stops _, stops _, stops _, stops _, stops _, stops _, stops _,
      List.forall_mem_nil _⟩

end Sys2Proof.Machine
end

section
/-! The fetch (40_fetch_decode_dispatch R104 to R107): when it stops, and what it reads. -/

namespace Sys2Proof.Machine

/-- R105: a fetched instruction lies below address 256. -/
theorem nops_le_of_fetch_ok {s : State} {i : Instr} (hfetch : fetch s = .ok i) :
    s.pc.toNat + nops (s.memRead s.pc) ≤ 255 := by
  obtain ⟨hop, hfit, -⟩ := fetch_ok s hfetch
  rwa [← hop, Laws.nops_opcode]

/-- Settles O42: the fetch completes only within memory (`nops_le_of_fetch_ok`), and with a known opcode it stops only
beyond it (`fetch_error`). -/
theorem fetchBoundRaised : Obligations.FetchBoundRaised := by
  unfold Obligations.FetchBoundRaised
  intro s hrom
  rw [← nops_eq_div]
  cases hfetch : fetch s with
  | ok i =>
    have hfit := nops_le_of_fetch_ok hfetch
    exact ⟨fun hgt => absurd hfit (Nat.not_le.mpr hgt), fun _ => ⟨i, rfl, (fetch_ok s hfetch).1⟩⟩
  | error e =>
    obtain ⟨hnone, -⟩ | ⟨-, hgt, rfl⟩ := fetch_error s hfetch
    · exact absurd hnone hrom
    · exact ⟨fun _ => by rw [executePhase, hfetch]; rfl, fun hfit => absurd hgt (Nat.not_lt.mpr hfit)⟩

/-- R101, R104 to R106: the bytes at `pc` are the encoding of one instruction, and that is the one fetched. -/
theorem fetch_of_encode {s : State} {i : Instr}
    (hbytes : ∀ (k : Nat) (h : k < (encode i).length),
      s.pc.toNat + k ≤ 255 ∧ s.memRead (s.pc + BitVec.ofNat 8 k) = (encode i)[k]) : fetch s = .ok i := by
  have hop : s.memRead s.pc = i.opcode.byte := by
    have hfirst := (hbytes 0 (Nat.succ_pos _)).2
    rwa [BitVec.add_zero] at hfirst
  cases hfetch : fetch s with
  | ok j =>
    obtain ⟨hopj, -, hread⟩ := fetch_ok s hfetch
    have hopcode : j.opcode.byte = i.opcode.byte := hopj.trans hop
    have hlength : j.operands.length = i.operands.length := by
      rw [← Laws.nops_opcode, hopcode, Laws.nops_opcode]
    have hoperands : j.operands = i.operands := List.ext_getElem hlength fun k hj hi => by
      rw [← hread k hj]
      exact (hbytes (k + 1) (Nat.succ_lt_succ hi)).2
    exact congrArg _ (encode_injective (congrArg₂ List.cons hopcode hoperands))
  | error e =>
    obtain ⟨hnone, -⟩ | ⟨-, hgt, -⟩ := fetch_error s hfetch
    · rw [hop, rom_byte] at hnone
      cases hnone
    · have hlast := (hbytes i.operands.length (Nat.lt_succ_self _)).1
      rw [hop, Laws.nops_opcode] at hgt
      exact absurd hlast (Nat.not_le.mpr hgt)

/-- Settles O53: the bytes are the instruction's encoding (`eq_encode_append_of_decode`), so the fetch finds it. -/
theorem stepRunsTheDecodedInstruction : Obligations.StepRunsTheDecodedInstruction := by
  unfold Obligations.StepRunsTheDecodedInstruction
  intro s t irqIn kbdWrite bytes i hrun hin hserv hdecode hbytes
  obtain rfl : bytes = encode i := by simpa using eq_encode_append_of_decode hdecode
  rw [step_of_serviced hrun hin hserv, executePhase, fetch_of_encode hbytes]

end Sys2Proof.Machine
end

section
/-! Phase P, a stopped machine and `rst` (40_fetch_decode_dispatch R100, R102; 70_reset_and_hazards R220, R221). -/

namespace Sys2Proof.Machine

/-- Settles O46: both equations are the definition of `poll`. -/
theorem pollAccumulates : Obligations.PollAccumulates := fun _ _ _ => ⟨rfl, rfl⟩

/-- R100 (log 3): a sample presented to a stopped machine is taken from the list and changes nothing. -/
theorem step_of_not_running {s : State} {irqIn : Byte} {kbdWrite : Option Byte} (hrun : s.run ≠ .running)
    (hin : s.nextInput = .sample irqIn kbdWrite) : step s = .next s.takeInput := by
  rw [step, hin, transaction, State.takeInput_run]
  cases hr : s.run with
  | running => exact absurd hr hrun
  | halted | faulted => rfl

/-- Settles O45: an empty list presents the quiet sample, and taking it changes nothing. -/
theorem stoppedMachineStays : Obligations.StoppedMachineStays := by
  unfold Obligations.StoppedMachineStays
  refine fun s hrun => ⟨fun hnone => ?quiet, fun irqIn kbdWrite rest hlisted => ?listed⟩
  case quiet =>
    rw [step_of_not_running hrun (by rw [State.nextInput, hnone]; rfl), State.takeInput, hnone, List.tail_nil, ← hnone]
  case listed =>
    rw [step_of_not_running hrun (by rw [State.nextInput, hlisted]; rfl), State.takeInput, hlisted, List.tail_cons]

/-- Settles O54: the input taken is the `rst`, whose transaction is `State.resetCore`. -/
theorem resetFromAnyState : Obligations.ResetFromAnyState := by
  unfold Obligations.ResetFromAnyState
  intro s rest hlisted
  rw [step, State.nextInput, State.takeInput, hlisted]
  rfl

end Sys2Proof.Machine
end

section
/-! What interrupt entry saves (60_exceptions R196) and what an IRET takes back (45 R171). -/

namespace Sys2Proof.Machine

/-- The nine bytes an entry leaves in memory, first at the highest address (R196): the frame of `s` with the pending
register cleared. -/
def savedFrame (s : State) : List Byte :=
  [s.pc, BitVec.ofNat 8 s.fl.toNat, s.reg 0, s.reg 1, s.reg 2, s.reg 3, s.reg 4, s.reg 5, 0x00#8]

theorem frame_eq_savedFrame (s : State) : ((s.setIe false).setReg 6 0x00#8).frame = savedFrame s := by
  simp [State.frame, savedFrame]

/-- R196: clearing `IE` and the pending register leaves the pointer. -/
theorem sp_before_pushes (s : State) : ((s.setIe false).setReg 6 0x00#8).reg 7 = s.reg 7 :=
  State.reg_setReg_of_ne _ 6 7 _ (by decide)

/-- R197. -/
theorem vectorAddress_eq : ∀ n : Fin 8, vectorAddress n = BitVec.ofNat 8 (0xF8 + n.val) := by decide

theorem toNat_sub_ofNat {p : Byte} {k : Nat} (h : k ≤ p.toNat) : (p - BitVec.ofNat 8 k).toNat + k = p.toNat := by
  have hp := p.isLt
  rw [BitVec.toNat_sub, BitVec.toNat_ofNat]
  omega

/-- Where the pointer has room for nine bytes, an entry completes: it pushes the saved frame, then reads the vector. -/
theorem interruptEntry_of_le {s : State} (n : Fin 8) (hroom : 9 ≤ (s.reg 7).toNat) :
    ∃ u, interruptEntry n s = .ok (u.setPc (u.memRead (vectorAddress n))) ∧
      Pushed (savedFrame s) ((s.setIe false).setReg 6 0x00#8) u := by
  obtain ⟨u, hu, -, hpushed⟩ := pushAll_of_le ((s.setIe false).setReg 6 0x00#8) (savedFrame s)
    (sp_before_pushes s ▸ hroom)
  refine ⟨u, ?_, hpushed⟩
  rw [interruptEntry_eq, frame_eq_savedFrame, hu, ok_bind]

/-- R196: after an entry the saved frame stands below the old pointer, and every other cell is as before. -/
theorem memRead_of_entry {n : Fin 8} {s t : State} (hentry : interruptEntry n s = .ok t) :
    (∀ (k : Nat) (hk : k < 9), t.memRead (s.reg 7 - BitVec.ofNat 8 (k + 1)) = (savedFrame s)[k]) ∧
      ∀ a : Byte, a.toNat + 9 < (s.reg 7).toNat ∨ (s.reg 7).toNat ≤ a.toNat → t.memRead a = s.memRead a := by
  have hsp := (interruptEntry_ok s hentry).sp
  obtain ⟨u, hu, hpushed⟩ := interruptEntry_of_le n (s := s) (by omega)
  obtain rfl := Except.ok.inj (hu.symm.trans hentry)
  refine ⟨fun k hk => hpushed.cell _ k hk ?cell, fun a ha => hpushed.other a ?other⟩
  case cell =>
    rw [sp_before_pushes, Nat.add_assoc]
    exact toNat_sub_ofNat (by omega)
  case other =>
    rw [State.setPc_reg] at hsp
    rw [sp_before_pushes]
    omega

/-- Settles O48: the fields are those of `Entered`, the cells those of `memRead_of_entry`. -/
theorem interruptEntrySavesTheFrame : Obligations.InterruptEntrySavesTheFrame := by
  unfold Obligations.InterruptEntrySavesTheFrame
  intro s n (hroom : 9 ≤ (s.reg 7).toNat)
  obtain ⟨u, hentry, -⟩ := interruptEntry_of_le n hroom
  generalize u.setPc (u.memRead (vectorAddress n)) = t at hentry
  have hent := interruptEntry_ok s hentry
  obtain ⟨hcell, hother⟩ := memRead_of_entry hentry
  refine ⟨t, hentry, ?fields, hcell 0 (by decide), hcell 1 (by decide), hcell 2 (by decide), hcell 3 (by decide),
    hcell 4 (by decide), hcell 5 (by decide), hcell 6 (by decide), hcell 7 (by decide), hcell 8 (by decide), hother⟩
  case fields =>
    refine State.ext_reg (fun r => ?reg) (hent.pc.trans (congrArg t.memRead (vectorAddress_eq n))) hent.fl hent.ie
      hent.run hent.cause hent.epc hent.einfo hent.out rfl hent.inputs
    case reg =>
      change t.reg r = ((s.setReg 6 0x00#8).setReg 7 (s.reg 7 - 9#8)).reg r
      rw [State.reg_setReg, State.reg_setReg]
      split_ifs with h7 h6
      · subst h7
        have hsp := hent.sp
        have hsub := toNat_sub_ofNat hroom
        exact BitVec.eq_of_toNat_eq (by omega)
      · exact h6 ▸ hent.pending
      · exact hent.reg r h6 h7

/-- The cells of the frame seen from the new pointer, and so at a later state that finds them there. -/
theorem memRead_frame_of_entry {n : Fin 8} {s t u : State} (hentry : interruptEntry n s = .ok t)
    (hsp : u.reg 7 = t.reg 7)
    (hcells : ∀ k : Fin 9, u.memRead (t.reg 7 + BitVec.ofNat 8 k) = t.memRead (t.reg 7 + BitVec.ofNat 8 k))
    (k : Fin 9) : u.memRead (u.reg 7 + BitVec.ofNat 8 k) = (savedFrame s)[8 - k.val]'(by simp [savedFrame]; omega) := by
  have hroom := (interruptEntry_ok s hentry).sp
  have haddr : t.reg 7 + BitVec.ofNat 8 k = s.reg 7 - BitVec.ofNat 8 (8 - k.val + 1) := by
    have hlt := (s.reg 7).isLt
    have hsub := toNat_sub_ofNat (p := s.reg 7) (k := 8 - k.val + 1) (by omega)
    apply BitVec.eq_of_toNat_eq
    rw [BitVec.toNat_add, BitVec.toNat_ofNat]
    omega
  rw [hsp, hcells k, haddr]
  exact (memRead_of_entry hentry).1 (8 - k.val) (by omega)

/-- Settles O49: IRET's next state is that of `iretResult`, and each of its nine bytes is one of the saved frame. -/
theorem entryThenIretRestores : Obligations.EntryThenIretRestores := by
  unfold Obligations.EntryThenIretRestores
  intro s t u n hentry (hsp : u.reg 7 = t.reg 7) hcells
  have hsaved := memRead_frame_of_entry hentry hsp hcells
  have hroom := (interruptEntry_ok s hentry).sp
  have hbyte := (s.reg 7).isLt
  have hold : u.reg 7 + 9#8 = s.reg 7 := by
    apply BitVec.eq_of_toNat_eq
    rw [hsp, BitVec.toNat_add, BitVec.toNat_ofNat]
    omega
  refine (iretResult u (show (u.reg 7).toNat ≤ 0xF6 by rw [hsp]; omega)).trans (congrArg Host.Outcome.next ?_)
  refine State.ext_reg (fun r => ?reg) (hsaved 8) ?fl rfl rfl rfl rfl rfl rfl rfl rfl
  case reg =>
    change _ = (s.setReg 6 0x00#8).reg r
    rw [State.reg_setReg]
    fin_cases r
    exacts [hsaved 6, hsaved 5, hsaved 4, hsaved 3, hsaved 2, hsaved 1,
      (congrArg u.memRead (BitVec.add_zero _).symm).trans (hsaved 0), hold]
  case fl =>
    refine (congrArg (BitVec.setWidth 3) (hsaved 7)).trans ?_
    simp [savedFrame]

end Sys2Proof.Machine
end

section
/-! Who may write `IE`, `FL` and `OUT` (10_state R27, R28, R35; 60_exceptions R198). -/

namespace Sys2Proof.Machine

/-- But for `rst`, a step keeps `FL` and `OUT` and sets no `IE`, or it completes the instruction it fetched, from a
state with `FL` and `OUT` as they were. -/
theorem step_keeps_or_completes {s t : State} (hstep : step s = .next t) (hrst : s.nextInput ≠ .rst) :
    (t.fl = s.fl ∧ t.out = s.out ∧ (s.ie = false → t.ie = false)) ∨
      ∃ irqIn kbdWrite u i, s.nextInput = .sample irqIn kbdWrite ∧ s.run = .running ∧
        serviceInterrupts (poll irqIn kbdWrite s.takeInput) = .ok u ∧ u.fl = s.fl ∧ u.out = s.out ∧
        (s.ie = false → u = poll irqIn kbdWrite s.takeInput) ∧ fetch u = .ok i ∧ Completed i u t := by
  obtain ⟨hin, -⟩ | ⟨irqIn, kbdWrite, hin, ⟨-, rfl⟩ | ⟨hrun, p, hpoll, hp, hphases⟩⟩ := step_cases s hstep
  · exact absurd hin hrst
  · exact .inl ⟨rfl, rfl, id⟩
  · obtain ⟨e, hserv, rfl⟩ | ⟨u, hserv, hx⟩ := hphases
    · exact .inl ⟨hp.fl, hp.out, hp.ie.trans⟩
    · obtain ⟨-, -, -, -, hout, hfl, -, -⟩ := serviceInterrupts_keeps p hserv
      have hfl : u.fl = s.fl := hfl.trans hp.fl
      have hout : u.out = s.out := hout.trans hp.out
      have hidle (hie : s.ie = false) : u = p := by
        rw [serviceInterrupts_of_idle (.inl (hp.ie.trans hie))] at hserv
        exact (Except.ok.inj hserv).symm
      have hoff (hie : s.ie = false) : u.ie = false := by rw [hidle hie, hp.ie]; exact hie
      obtain ⟨e, -, rfl⟩ | ⟨i, hfetch, hexec⟩ := hx
      · exact .inl ⟨hfl, hout, hoff⟩
      · obtain hdone | ⟨e, -, rfl⟩ := completed_or_stopped hexec
        · exact .inr ⟨irqIn, kbdWrite, u, i, hin, hrun, hpoll ▸ hserv, hfl, hout, hpoll ▸ hidle, hfetch, hdone⟩
        · exact .inl ⟨hfl, hout, hoff⟩

/-- Settles O50: with `IE` clear phase I does nothing, and a completed instruction other than IRET keeps `IE`. -/
theorem onlyIretOrResetEnables : Obligations.OnlyIretOrResetEnables := by
  unfold Obligations.OnlyIretOrResetEnables
  intro s t hstep hoff hon
  refine or_iff_not_imp_left.mpr fun hrst => ?_
  obtain ⟨-, -, hkept⟩ | ⟨irqIn, kbdWrite, u, i, hin, hrun, -, -, -, hidle, hfetch, hdone⟩ :=
    step_keeps_or_completes hstep hrst
  · exact absurd hon (by rw [hkept hoff]; decide)
  · obtain rfl := hidle hoff
    have hpolled := poll_polled s.takeInput irqIn kbdWrite
    have hiret : i = .iret := by
      by_contra hne
      rw [hdone.ie hne, hpolled.ie, State.takeInput_ie, hoff] at hon
      cases hon
    obtain ⟨hop, -, -⟩ := fetch_ok _ hfetch
    rw [hpolled.pc, hiret] at hop
    exact ⟨irqIn, kbdWrite, hin, hrun, hop.symm⟩

/-- Settles O51: only a completed instruction writes `FL`, and it is CMP or IRET. -/
theorem onlyCmpIretResetWriteFlags : Obligations.OnlyCmpIretResetWriteFlags := by
  unfold Obligations.OnlyCmpIretResetWriteFlags
  intro s t hstep hchanged
  refine or_iff_not_imp_left.mpr fun hrst => ?_
  obtain ⟨hkept, -, -⟩ | ⟨irqIn, kbdWrite, u, i, hin, -, hserv, hfl, -, -, hfetch, hdone⟩ :=
    step_keeps_or_completes hstep hrst
  · exact absurd hkept hchanged
  · obtain ⟨hop, -, -⟩ := fetch_ok u hfetch
    refine ⟨irqIn, kbdWrite, u, hin, hserv, ?_⟩
    rw [← hop]
    by_cases hiret : i = .iret
    · exact .inr (by rw [hiret]; rfl)
    · by_cases hcmp : i.opcode = .cmp
      · exact .inl (by rw [hcmp]; rfl)
      · exact absurd ((hdone.fl hiret hcmp).trans hfl) hchanged

/-- Settles O52: only a completed instruction writes `OUT`, and it is a PRN with the operand byte it fetched. -/
theorem outputOnlyGrowsByPrn : Obligations.OutputOnlyGrowsByPrn := by
  unfold Obligations.OutputOnlyGrowsByPrn
  intro s t hstep hrst
  obtain ⟨-, hkept, -⟩ | ⟨irqIn, kbdWrite, u, i, hin, -, hserv, -, hout, -, hfetch, hdone⟩ :=
    step_keeps_or_completes hstep hrst
  · exact .inl hkept
  · obtain ⟨hop, -, hread⟩ := fetch_ok u hfetch
    by_cases hprn : i.opcode = .prn
    · obtain ⟨a, rfl⟩ : ∃ a, i = .prn a := by cases i <;> cases hprn; exact ⟨_, rfl⟩
      obtain ⟨r, rfl, hemitted⟩ := hdone.prn a rfl
      exact .inr ⟨irqIn, kbdWrite, u, r, hin, hserv, hop.symm, hread 0 Nat.one_pos, hout ▸ hemitted⟩
    · exact .inl ((hdone.out hprn).trans hout)

end Sys2Proof.Machine
end

section
/-! Which registers an instruction may write (41_alu R120, 42, 43, 44, 45). -/

namespace Sys2Proof

/-- The registers an instruction may write: IRET every one (R170), the stack instructions the pointer (R57), and the
others at most the destination their byte `a` names. -/
def Instr.mayWrite (i : Instr) (r : Fin 8) : Prop :=
  match i with
  | .iret => True
  | .hlt | .prn _ | .jmp _ | .jeq _ | .jne _ | .cmp _ _ => False
  | .ret | .push _ | .call _ => r = 7
  | .pop a => r = 7 ∨ r.val = a.toNat
  | .not a | .ldi a _ | .addi a _ | .add a _ | .sub a _ | .mul a _ | .mod a _ | .and a _ | .or a _ | .xor a _
  | .shl a _ | .shr a _ => r.val = a.toNat

end Sys2Proof

namespace Sys2Proof.Machine

/-- If a working state completes, its register `r` is the one `s` has. -/
def KeepsReg (r : Fin 8) (s : State) (x : Except Stop State) : Prop := ∀ u, x = .ok u → u.reg r = s.reg r

section
variable {r : Fin 8} {s t : State}

theorem KeepsReg.ok (h : t.reg r = s.reg r) : KeepsReg r s (.ok t) := fun _ hu => Except.ok.inj hu ▸ h

theorem KeepsReg.error (e : Stop) : KeepsReg r s (.error e) := nofun

theorem KeepsReg.bind {α : Type} {x : Except Stop α} {f : α → Except Stop State}
    (h : ∀ v, x = .ok v → KeepsReg r s (f v)) : KeepsReg r s (x >>= f) := by
  intro u hu
  obtain ⟨v, hv, hf⟩ := bind_eq_ok.mp hu
  exact h v hv u hf

theorem KeepsReg.ite {c : Prop} [Decidable c] {x y : Except Stop State} (hx : KeepsReg r s x) (hy : KeepsReg r s y) :
    KeepsReg r s (if c then x else y) := by
  split
  · exact hx
  · exact hy

/-- R109: the advance writes `pc` alone. -/
theorem KeepsReg.advance {n : Nat} (h : t.reg r = s.reg r) : KeepsReg r s (advance n t) := .ite (.error _) (.ok h)

/-- R188: a phase keeps a register that its working state keeps; a stopped one keeps them all. -/
theorem reg_of_runPhase {x : Except Stop State} (hphase : runPhase s x = .next t) (h : KeepsReg r s x) :
    t.reg r = s.reg r := by
  obtain rfl := Host.Outcome.next.inj hphase
  cases x with
  | ok u => exact h u rfl
  | error e => rfl

/-- The check of an operand byte and a write of the register it names keep every register it does not name. -/
theorem registerOperand_ne {a : Byte} {ra : Fin 8} (hra : registerOperand a = .ok ra) (hr : r.val ≠ a.toNat) :
    r ≠ ra := by
  obtain ⟨q, rfl, hq⟩ | ⟨-, hbad⟩ := registerOperand_cases a
  · rintro rfl
    rw [registerOperand_regByte] at hra
    exact hr (by rw [regByte_toNat, Except.ok.inj hra])
  · rw [hbad] at hra
    cases hra

theorem twoRegisters_keeps_reg {f : Byte → Byte → Byte} {a b : Byte} (hr : r.val ≠ a.toNat)
    (h : twoRegisters f a b s = .next t) : t.reg r = s.reg r :=
  reg_of_runPhase h (.bind fun _ hra => .bind fun _ _ => .advance
    (State.reg_setReg_of_ne _ _ _ _ (registerOperand_ne hra hr)))

theorem registerLiteral_keeps_reg {f : Byte → Byte → Byte} {a b : Byte} (hr : r.val ≠ a.toNat)
    (h : registerLiteral f a b s = .next t) : t.reg r = s.reg r :=
  reg_of_runPhase h (.bind fun _ hra => .advance (State.reg_setReg_of_ne _ _ _ _ (registerOperand_ne hra hr)))

theorem jumpIf_keeps_reg {taken : Bool} {a : Byte} (h : jumpIf taken a s = .next t) : t.reg r = s.reg r :=
  reg_of_runPhase h (.bind fun _ _ => .ite (.ok rfl) (.advance rfl))

theorem execNot_keeps_reg {a : Byte} (hr : r.val ≠ a.toNat) (h : execNot a s = .next t) : t.reg r = s.reg r :=
  reg_of_runPhase h (.bind fun _ hra => .advance (State.reg_setReg_of_ne _ _ _ _ (registerOperand_ne hra hr)))

theorem execMod_keeps_reg {a b : Byte} (hr : r.val ≠ a.toNat) (h : execMod a b s = .next t) : t.reg r = s.reg r :=
  reg_of_runPhase h (.bind fun _ hra => .bind fun _ _ => .ite (.error _) (.advance
    (State.reg_setReg_of_ne _ _ _ _ (registerOperand_ne hra hr))))

theorem execCmp_keeps_reg {a b : Byte} (h : execCmp a b s = .next t) : t.reg r = s.reg r :=
  reg_of_runPhase h (.bind fun _ _ => .bind fun _ _ => .advance rfl)

theorem execPrn_keeps_reg {a : Byte} (h : execPrn a s = .next t) : t.reg r = s.reg r :=
  reg_of_runPhase h (.bind fun _ _ => .advance rfl)

/-- R57: the pointer's decrement and increment write `x[7]` alone. -/
theorem predecrement_keeps_reg {u : State} (hr : r ≠ 7) (h : predecrement s = .ok u) : u.reg r = s.reg r :=
  KeepsReg.ite (.error _) (.ok (State.reg_setReg_of_ne _ _ _ _ hr)) u h

theorem postincrement_keeps_reg {u : State} (hr : r ≠ 7) (h : postincrement s = .ok u) : u.reg r = s.reg r :=
  KeepsReg.ite (.error _) (.ok (State.reg_setReg_of_ne _ _ _ _ hr)) u h

theorem push_keeps_reg {v : Byte} {u : State} (hr : r ≠ 7) (h : push v s = .ok u) : u.reg r = s.reg r :=
  KeepsReg.bind (fun _ hu => .ok ((State.memWrite_reg _ _ _ _).trans (predecrement_keeps_reg hr hu))) u h

theorem pop_keeps_reg {v : Byte} {u : State} (hr : r ≠ 7) (h : pop s = .ok (v, u)) : u.reg r = s.reg r := by
  obtain ⟨w, hw, hu⟩ := bind_eq_ok.mp h
  cases hu
  exact postincrement_keeps_reg hr hw

theorem execPush_keeps_reg {a : Byte} (hr : r ≠ 7) (h : execPush a s = .next t) : t.reg r = s.reg r :=
  reg_of_runPhase h (.bind fun _ _ => .bind fun _ hu => .advance
    ((State.memWrite_reg _ _ _ _).trans (predecrement_keeps_reg hr hu)))

theorem execPop_keeps_reg {a : Byte} (hr : r ≠ 7) (hra : r.val ≠ a.toNat) (h : execPop a s = .next t) :
    t.reg r = s.reg r :=
  reg_of_runPhase h (.bind fun _ ha => .ite (.error _) (.bind fun _ hu => .advance
    ((postincrement_keeps_reg hr hu).trans (State.reg_setReg_of_ne _ _ _ _ (registerOperand_ne ha hra)))))

theorem execCall_keeps_reg {a : Byte} (hr : r ≠ 7) (h : execCall a s = .next t) : t.reg r = s.reg r :=
  reg_of_runPhase h (.bind fun _ _ => .ite (.error _) (.bind fun _ hpush => .ok
    ((State.setPc_reg _ _ _).trans (push_keeps_reg hr hpush))))

theorem execRet_keeps_reg (hr : r ≠ 7) (h : execRet s = .next t) : t.reg r = s.reg r :=
  reg_of_runPhase h (.bind fun _ hpop => .ok ((State.setPc_reg _ _ _).trans (pop_keeps_reg hr hpop)))

end

/-- An instruction keeps every register but those it may write, whether it completes or stops. -/
theorem exec_keeps_reg {i : Instr} {r : Fin 8} {s t : State} (hexec : exec i s = .next t) (hr : ¬ i.mayWrite r) :
    t.reg r = s.reg r := by
  cases i with
  | hlt => exact reg_of_runPhase hexec (.error _)
  | iret => exact absurd trivial hr
  | ret => exact execRet_keeps_reg hr hexec
  | push a => exact execPush_keeps_reg hr hexec
  | call a => exact execCall_keeps_reg hr hexec
  | pop a => exact execPop_keeps_reg (not_or.mp hr).1 (not_or.mp hr).2 hexec
  | prn a => exact execPrn_keeps_reg hexec
  | jmp a | jeq a | jne a => exact jumpIf_keeps_reg hexec
  | not a => exact execNot_keeps_reg hr hexec
  | ldi a b => exact registerLiteral_keeps_reg (f := fun _ v => v) hr hexec
  | addi a b => exact registerLiteral_keeps_reg (f := wrapAdd) hr hexec
  | add a b | sub a b | mul a b | and a b | or a b | xor a b | shl a b | shr a b =>
    exact twoRegisters_keeps_reg hr hexec
  | mod a b => exact execMod_keeps_reg hr hexec
  | cmp a b => exact execCmp_keeps_reg hexec

end Sys2Proof.Machine
end

section
/-! The frames of the instructions (10_state R27, R34; 20_memory section 5; 41 to 45). -/

namespace Sys2Proof

/-- An instruction with no operand byte, or whose operand bytes are `a`, or `a` and `b`. -/
def Instr.hasOperands (i : Instr) (a b : Byte) : Prop :=
  i = .hlt ∨ i = .ret ∨ i = .iret ∨ i.operands = [a] ∨ i.operands = [a, b]

theorem Instr.hasOperands.first_eq {i : Instr} {a b c : Byte} {rest : List Byte} (hform : i.hasOperands a b)
    (hc : i.operands = c :: rest) : c = a := by
  rcases hform with rfl | rfl | rfl | hops | hops
  iterate 3 cases hc
  all_goals exact (List.cons.inj (hc.symm.trans hops)).1

theorem Instr.hasOperands.operands_eq {i : Instr} {a b : Byte} (hform : i.hasOperands a b) :
    i.operands = [a, b].take i.operands.length := by
  rcases hform with rfl | rfl | rfl | hops | hops
  iterate 3 rfl
  all_goals rw [hops]; rfl

/-- R70: the handler and the operand bytes make the instruction, and the handler says how many bytes there are. -/
theorem Instr.hasOperands.eq_of_opcode {i j : Instr} {a b : Byte} (hform : i.hasOperands a b)
    (hop : i.opcode = j.opcode) (hj : j.operands = [a, b].take j.operands.length) : i = j := by
  have hlength : i.operands.length = j.operands.length := by rw [← Laws.nops_opcode, hop, Laws.nops_opcode]
  have hoperands : i.operands = j.operands := by rw [hform.operands_eq, hlength, ← hj]
  exact encode_injective (congrArg₂ List.cons (congrArg Opcode.byte hop) hoperands)

end Sys2Proof

namespace Sys2Proof.Machine

/-- A form that stores nothing writes at most its destination, and the pointer in RET and POP. -/
theorem not_mayWrite_of_form {i : Instr} {a b : Byte} {r : Fin 8} (hform : i.hasOperands a b) (hpush : i ≠ .push a)
    (hcall : i ≠ .call a) (hiret : i ≠ .iret) (hstack : r = 7 → i ≠ .ret ∧ i ≠ .pop a) (hr : r.val ≠ a.toNat) :
    ¬ i.mayWrite r := by
  cases i with
  | hlt | prn _ | jmp _ | jeq _ | jne _ | cmp _ _ => exact id
  | iret => exact absurd rfl hiret
  | ret => exact fun h7 => (hstack h7).1 rfl
  | push c => exact absurd (congrArg Instr.push (hform.first_eq rfl)) hpush
  | call c => exact absurd (congrArg Instr.call (hform.first_eq rfl)) hcall
  | pop c =>
    obtain rfl := hform.first_eq rfl
    exact not_or.mpr ⟨fun h7 => (hstack h7).2 rfl, hr⟩
  | not c | ldi c _ | addi c _ | add c _ | sub c _ | mul c _ | mod c _ | and c _ | or c _ | xor c _ | shl c _
  | shr c _ =>
    obtain rfl := hform.first_eq rfl
    exact hr

/-- Settles O58: memory and the other fields are those of `Completed`, or of `State.stop`, and the registers those of
`exec_keeps_reg`. -/
theorem frameOfFormsThatStoreNothing : Obligations.FrameOfFormsThatStoreNothing := by
  unfold Obligations.FrameOfFormsThatStoreNothing
  intro s t a b i hpush hcall (hform : i.hasOperands a b) hexec
  have hothers (r : Fin 8) (hiret : i ≠ .iret) (hstack : r = 7 → i ≠ .ret ∧ i ≠ .pop a) (hr : r.val ≠ a.toNat) :
      t.reg r = s.reg r := exec_keeps_reg hexec (not_mayWrite_of_form hform hpush hcall hiret hstack hr)
  have hnone (r : Fin 8) (hi : i = .cmp a b ∨ i = .prn a ∨ i = .jmp a ∨ i = .jeq a ∨ i = .jne a ∨ i = .hlt) :
      t.reg r = s.reg r := by
    refine exec_keeps_reg hexec ?_
    rcases hi with rfl | rfl | rfl | rfl | rfl | rfl <;> exact id
  obtain hdone | ⟨e, hstop, rfl⟩ := completed_or_stopped hexec
  · have hmem : t.mem = s.mem := hdone.mem (fun hop => hpush (hform.eq_of_opcode hop rfl))
      fun hop => hcall (hform.eq_of_opcode hop rfl)
    exact ⟨fun c => congrArg (Memory.read · c) hmem, hdone.inputs, hdone.ie,
      fun hiret hcmp => hdone.fl hiret fun hop => hcmp (hform.eq_of_opcode hop rfl),
      fun hprn => hdone.out fun hop => hprn (hform.eq_of_opcode hop rfl), hothers, hnone,
      .inl ⟨hdone.run, hdone.cause, hdone.epc, hdone.einfo⟩⟩
  · exact ⟨fun _ => rfl, rfl, fun _ => rfl, fun _ _ => rfl, fun _ => rfl, hothers, hnone, .inr ⟨hstop.run_ne, rfl⟩⟩

/-- Settles O59: as O58, with the one cell of `Completed.cell`. -/
theorem frameOfFormsThatStore : Obligations.FrameOfFormsThatStore := by
  unfold Obligations.FrameOfFormsThatStore
  intro s t a i hi hexec
  have hothers (r : Fin 8) (hr : r ≠ 7) : t.reg r = s.reg r := by
    refine exec_keeps_reg hexec ?_
    rcases hi with rfl | rfl <;> exact hr
  have hkinds : i ≠ .iret ∧ i.opcode ≠ .cmp ∧ i.opcode ≠ .prn := by
    rcases hi with rfl | rfl <;> exact ⟨nofun, nofun, nofun⟩
  obtain ⟨hiret, hcmp, hprn⟩ := hkinds
  obtain hdone | ⟨e, hstop, rfl⟩ := completed_or_stopped hexec
  · exact ⟨hdone.cell, hdone.inputs, hdone.ie hiret, hdone.fl hiret hcmp, hdone.out hprn, hothers,
      .inl ⟨hdone.run, hdone.cause, hdone.epc, hdone.einfo⟩⟩
  · exact ⟨fun _ _ => rfl, rfl, rfl, rfl, rfl, hothers, .inr ⟨hstop.run_ne, rfl, fun _ => rfl⟩⟩

end Sys2Proof.Machine
end
